-- ==== Sys2Proof/Word.lean ====
section
/-! DEFINITION. The widths of the block's values (spec/00_scope.md R12, R13, R70). All are unsigned bit vectors,
bit 0 the least significant (R13). -/

namespace Sys2Proof

/-- One byte of a buffer (R53). -/
abbrev Byte := BitVec 8

/-- One host-bus word, and every host-visible register (R12, R34). -/
abbrev Word := BitVec 32

/-- One block of the cipher `E`, the key, a keystream block (R4, R12). -/
abbrev Bits128 := BitVec 128

/-- A byte offset from `BASE`: the block's whole address space is 24 bits of offset (R70). -/
abbrev Offset := BitVec 24

end Sys2Proof
end

