-- ==== Sys2Proof/Config.lean ====
section
/-! DEFINITION. What an implementation fixes (spec/00_scope.md section 4, R5, R9 to R11) and the free draws (R18).
Everything opaque here has no body, so no proof can see its value; see log entries 3 and 8. -/

namespace Sys2Proof

/-- `E(k, b)`, the one external primitive: a total function, nothing else is assumed of it (R4, R5). AES-128 is the
instance that interoperates; it is used in the tests only (log entry 8). -/
opaque Config.blockCipher : Bits128 → Bits128 → Bits128

/-- The choice behind `BUF_BYTES`: the values R9 allows, 16, 20, …, 2^20, are `4 * (k + 4)` for `k < 262141`. -/
opaque Config.bufSizeChoice : Fin 262141

/-- `BUF_BYTES` (R9): a multiple of 4 from 16 to 2^20, otherwise unknown. -/
def Config.bufBytes : Nat := 4 * (Config.bufSizeChoice.val + 4)

/-- `MAX_BITLEN = 8 * BUF_BYTES` (R10). -/
def Config.maxBitLen : Nat := 8 * Config.bufBytes

/-- `BASE`, the platform's choice of the block's base address (R11). -/
opaque Config.base : Nat

/-- Draw number `n` for IN byte `j`, unwritten since reset, read by the host (R302, U2). -/
opaque Config.unwrittenInByte (n j : Nat) : Byte

/-- Draw number `n` for OUT byte `j`, unwritten since reset, read by the host (R302, U2, U5). -/
opaque Config.unwrittenOutByte (n j : Nat) : Byte

/-- Draw number `n` for TAG read in phase BUSY (R133, U1). -/
opaque Config.busyTag (n : Nat) : Word

/-- Draw number `n` for OUT_BUF word `j` read in phase BUSY (R133, U1). -/
opaque Config.busyOutWord (n j : Nat) : Word

end Sys2Proof
end

