-- ==== Sys2Proof/Syntax.lean ====
section
/-! DEFINITION. The block's commands (spec/30_encoding.md R101: the two rows of opcode_table.json) and the host's
notation (R115, R116). -/

namespace Sys2Proof

/-- The commands of the opcode map (R101). Neither carries an operand: every operand comes from state (R105, R106). -/
inductive Instr where
  /-- `CONF`, word 0x00000001: the confidentiality engine (R160). -/
  | conf
  /-- `INTEG`, word 0x00000002: the integrity engine (R190). -/
  | integ
  deriving DecidableEq, Repr

/-- A host scratch register h0..h7; they belong to the host, not to the block (30 section 4). -/
abbrev HostReg := Fin 8

/-- A host operation, labels resolved to the index of the operation they name (R115). The last two forms are the
model's own: they make the accesses that R73 speaks of and R115 has no form for (log entry 16). -/
inductive HostOp where
  /-- `WR off, imm32`. -/
  | wr (off : Offset) (imm : Word)
  /-- `WRH off, hN`. -/
  | wrh (off : Offset) (src : HostReg)
  /-- `RD hN, off`. -/
  | rd (dst : HostReg) (off : Offset)
  /-- `AND hD, hS, imm32`; no bus access. -/
  | and (dst src : HostReg) (imm : Word)
  /-- `BNZ hS, label`; no bus access. -/
  | bnz (src : HostReg) (target : Nat)
  /-- `EXPECT off, imm32`. -/
  | expect (off : Offset) (imm : Word)
  /-- A read of `bytes` bytes at a host address, as the platform's bus makes it (R70, R73). -/
  | readAt (dst : HostReg) (addr bytes : Nat)
  /-- A write of `bytes` bytes at a host address (R70, R73). -/
  | writeAt (addr bytes : Nat) (v : Word)
  deriving DecidableEq, Repr

/-- A line of the host's notation, before labels and pseudo-instructions are expanded (R115, R116). -/
inductive HostLine where
  /-- `label:` names the next operation. -/
  | label (name : String)
  /-- An operation that stands for itself. -/
  | op (o : HostOp)
  /-- `BNZ hS, label`. -/
  | bnz (src : HostReg) (name : String)
  /-- `LDKEY k`, 32 hex digits. -/
  | ldkey (k : Bits128)
  /-- `SETCTX b, d`. -/
  | setctx (b d : Word)
  /-- `LDMSG hex`. -/
  | ldmsg (msg : List Byte)
  /-- `ISSUE CONF` or `ISSUE INTEG`. -/
  | issue (i : Instr)
  /-- `POLL`. -/
  | poll
  /-- `RUN op`. -/
  | run (i : Instr)
  deriving DecidableEq, Repr

end Sys2Proof
end

