-- ==== Sys2Proof/WellFormed.lean ====
section
/-! DEFINITION. What is well formed: commands, host operations and programs, and the fields and blocks the bit-buffer
primitives take. -/

namespace Sys2Proof

/-- A command has no operand that could be out of range (R104, R106): both are well formed. -/
def Instr.wf : Instr → Bool
  | .conf => true
  | .integ => true

/-- A branch goes to an operation of the program, or to its end (R115: a label names the next operation). -/
def HostOp.wf (len : Nat) : HostOp → Bool
  | .bnz _ target => decide (target ≤ len)
  | .wr .. | .wrh .. | .rd .. | .and .. | .expect .. | .readAt .. | .writeAt .. => true

/-- Every operation of a host program is well formed in it. -/
def hostProgramWf (p : List HostOp) : Bool := p.all (HostOp.wf p.length)

/-- The labels a text defines, in order. -/
def labelsOf : List HostLine → List String
  | [] => []
  | .label n :: ls => n :: labelsOf ls
  | _ :: ls => labelsOf ls

/-- The labels a text branches to. -/
def branchesOf : List HostLine → List String
  | [] => []
  | .bnz _ n :: ls => n :: branchesOf ls
  | _ :: ls => branchesOf ls

/-- A host text names no label twice and branches only to labels it defines (R115). -/
def hostTextWf (ls : List HostLine) : Bool :=
  decide (labelsOf ls).Nodup && (branchesOf ls).all (fun n => decide (n ∈ labelsOf ls))

/-- A field value fits its width: the domain of `concatFields` (R237, U10). -/
def fieldWf (v w : Nat) : Bool := decide (v < 2 ^ w)

/-- The number of valid bits `pad10star` takes: at most 127 (R239, U9). -/
def padWf (v : Nat) : Bool := decide (v ≤ 127)

end Sys2Proof
end

