-- ==== Sys2Proof/Decode.lean ====
section
/-! DEFINITION. The command word: its fields (spec/30_encoding.md R100), the total decoder (R102, R103), the encoder
(R101) and the disassembly (R116). -/

namespace Sys2Proof

/-- Why a command word is illegal (R103). Both reasons end the job with IllegalCommand. -/
inductive IllegalWord where
  /-- `MBZ != 0`, whatever OP is. -/
  | mbzNonzero
  /-- `MBZ = 0` and OP is 0x00 or 0x03 to 0xFF. -/
  | reservedOp (op : BitVec 8)
  deriving DecidableEq, Repr

/-- What the decoder answers (R102). -/
inductive Decoded where
  | instr (i : Instr)
  | illegal (why : IllegalWord)
  deriving DecidableEq, Repr

/-- OP, bits 7:0 of the command word (R100). -/
def cmdOp (w : Word) : BitVec 8 := w.extractLsb' 0 8

/-- MBZ, bits 31:8 of the command word (R100). -/
def cmdMbz (w : Word) : BitVec 24 := w.extractLsb' 8 24

/-- The decoder, total over all 2^32 words (R100 to R103). -/
def decode (w : Word) : Decoded :=
  if cmdMbz w ≠ 0#24 then .illegal .mbzNonzero
  else if cmdOp w = 0x01#8 then .instr .conf
  else if cmdOp w = 0x02#8 then .instr .integ
  else .illegal (.reservedOp (cmdOp w))

/-- The operation selector of a command (R101). -/
def opcode : Instr → BitVec 8
  | .conf => 0x01#8
  | .integ => 0x02#8

/-- The command word of a command: `MBZ ‖ OP` (R100, R101). -/
def encode (i : Instr) : Word := 0#24 ++ opcode i

/-- One hexadecimal digit, as the spec writes words. -/
def hexDigit (n : BitVec 4) : Char := "0123456789ABCDEF".toList.getD n.toNat '0'

/-- The eight hexadecimal digits of a word, most significant first. -/
def hexWord (w : Word) : List Char :=
  (List.range 8).map fun i => hexDigit (w.extractLsb' (28 - 4 * i) 4)

/-- The disassembly of a CMD word (R116). -/
def disassemble (w : Word) : String :=
  match decode w with
  | .instr .conf => "CONF"
  | .instr .integ => "INTEG"
  | .illegal _ => ".word 0x" ++ String.ofList (hexWord w)

/-- The decoder on a row of spec/opcode_table.json: the `nbits` low bits of `w` as one command word. The word is moved
whole over the 32-bit bus, so no byte order enters. -/
def decodeTableWord (nbits w : Nat) : Option Instr :=
  match decode (BitVec.ofNat 32 (w % 2 ^ nbits)) with
  | .instr i => some i
  | .illegal _ => none

end Sys2Proof
end

