-- ==== Sys2Proof/Machine/State.lean ====
section
/-! DEFINITION. The state: the block's registers and buffers (spec/10_state.md), the host agent's notation registers
(spec/30_encoding.md section 4), the schedule, and the two counters of free draws. -/

namespace Sys2Proof.Machine

/-- The phase of the block (R50). -/
inductive Phase where
  | idle
  | busy
  deriving DecidableEq, Repr

/-- A buffer: (byte index, byte) pairs, indices strictly rising. An index that is not listed is a byte left unwritten
since reset; it holds no value (R53, R302). -/
abbrev Memory := List Host.Cell

/-- The canonical form: indices strictly rise, so equal buffers are equal lists. -/
abbrev Memory.wf (m : Memory) : Prop := m.Pairwise (fun a b => a.1 < b.1)

/-- The block itself: the host-visible registers of R34 and the internal state of R50 to R53. -/
structure CoreState where
  /-- Phase (R50); STATUS.BUSY shows it (R37). -/
  phase : Phase
  /-- STATUS.DONE (R38). -/
  done : Bool
  /-- STATUS.ERR (R39). -/
  err : Bool
  /-- STATUS.ERRCODE (R40). -/
  errCode : BitVec 4
  /-- STATUS.KEYV (R41). -/
  keyv : BitVec 4
  /-- JOBCMD (R51). -/
  jobCmd : Word
  /-- KEY (R52). -/
  key : Bits128
  /-- COUNT (R43). -/
  count : Word
  /-- CTX.BEARER (R45). -/
  bearer : BitVec 8
  /-- CTX.DIRECTION (R46). -/
  direction : BitVec 1
  /-- BITLEN (R47). -/
  bitLen : Word
  /-- INLEN (R48). -/
  inLen : Word
  /-- TAG (R49). -/
  tag : Word
  /-- IN, keyed by byte index (R53). -/
  inBuf : Memory
  /-- OUT, keyed by byte index (R53). -/
  outBuf : Memory
  deriving DecidableEq, Repr

/-- The host agent of the notation R115: its program, the index of its next operation, and h0..h7. -/
structure HostAgent where
  program : List HostOp
  next : Nat
  regs : Vector Word 8
  deriving DecidableEq, Repr

/-- Who moves in one step (R83, R300). -/
inductive Turn where
  /-- The host performs its next operation. -/
  | host
  /-- The engine takes its completion step, if the phase is BUSY. -/
  | engine
  /-- The reset input is asserted. -/
  | reset
  deriving DecidableEq, Repr

/-- The whole machine. -/
structure State where
  /-- The block. -/
  core : CoreState
  /-- The host agent. -/
  host : HostAgent
  /-- MODEL's own: the turns still fixed, the next one first (log entry 2). -/
  schedule : List Turn
  /-- MODEL's own: the number of the next draw for TAG or OUT_BUF read in phase BUSY (R133, log entry 3). -/
  draws : Nat
  /-- MODEL's own: the number of the draws for unwritten bytes, advanced when a write, a completion or a reset changes the
  state, and by nothing else (R75, R302, log entries 3 and 9). -/
  epoch : Nat
  deriving DecidableEq, Repr

/-- Why a run stops. -/
inductive Fault where
  /-- A bus error response to the host, raised by a host operation whose access is not an aligned 32-bit access to a
  mapped offset (R280, U11). The block's state is unchanged. Safe. -/
  | busError (off : Offset)
  /-- A job read an IN byte that nothing has written since reset; raised by CONF and INTEG (R302, U3). Safe: the
  hardware goes on with an unspecified byte. -/
  | unwrittenInput
  /-- A STATUS read met an ERRCODE the block never produces (U7); raised by the host's read. Safe, unreachable. -/
  | reservedErrCode
  /-- EXPECT read another value than it names: the test fails (R115). Safe: it is the end of the test. -/
  | expectFailed (off : Offset) (want got : Word)
  deriving DecidableEq, Repr

/-- Why the model gives no meaning. -/
inductive Refusal where
  /-- An instruction without a meaning yet; raised by no arm of this model. Safe. -/
  | notModelled (mnemonic : String)
  /-- `pad10star` outside its domain, v = 128 (R239, U9); raised by INTEG, unreachable. Safe. -/
  | padOutsideDomain
  /-- A host address outside the block's window: it reaches another device of the platform (R81); raised by the raw
  host accesses. Safe. -/
  | notThisBlock (addr : Nat)
  deriving DecidableEq, Repr

/-- The three outcomes of a step of this machine. -/
abbrev Result := Host.Outcome State Fault Refusal

/-- The block after reset (R300). JOBCMD is the model's named value (log entry 4). -/
def CoreState.reset : CoreState where
  phase := .idle
  done := false
  err := false
  errCode := 0#4
  keyv := 0#4
  jobCmd := 0#32
  key := 0#128
  count := 0#32
  bearer := 0#8
  direction := 0#1
  bitLen := 0#32
  inLen := 0#32
  tag := 0#32
  inBuf := []
  outBuf := []

/-- The host agent before any program is loaded; h0..h7 are named values (log entry 5). -/
def HostAgent.reset : HostAgent where
  program := []
  next := 0
  regs := Vector.replicate 8 0#32

/-- The machine right after reset: the block as R300 says, no program loaded, nothing scheduled (R304). -/
def State.reset : State where
  core := CoreState.reset
  host := HostAgent.reset
  schedule := []
  draws := 0
  epoch := 0

end Sys2Proof.Machine
end

