-- ==== Sys2Proof/Machine/Flags.lean ====
section
/-! DEFINITION. STATUS: its word (spec/10_state.md R36) and what issue, success and error do to its flags (R38 to R40,
spec/40_command_protocol.md R130, R134, spec/60_exceptions.md R270, R271). -/

namespace Sys2Proof.Machine

/-- The errors of a job, in the order of their codes (R270). -/
inductive JobError where
  | invalidKeyLength
  | invalidBearerRange
  | bitLengthMismatch
  | unsupportedMessageLength
  | illegalCommand
  deriving DecidableEq, Repr

/-- `code(e)` (R270). -/
def JobError.code : JobError → BitVec 4
  | .invalidKeyLength => 1#4
  | .invalidBearerRange => 2#4
  | .bitLengthMismatch => 3#4
  | .unsupportedMessageLength => 4#4
  | .illegalCommand => 5#4

/-- STATUS.BUSY is 1 exactly when the phase is BUSY (R37). -/
def CoreState.busy (c : CoreState) : Bool := decide (c.phase = .busy)

/-- The STATUS word: bits 31:12 reserved, KEYV, ERRCODE, bit 3 reserved, ERR, DONE, BUSY (R36). -/
def CoreState.statusWord (c : CoreState) : Word :=
  0#20 ++ c.keyv ++ c.errCode ++ 0#1 ++ BitVec.ofBool c.err ++ BitVec.ofBool c.done ++ BitVec.ofBool c.busy

/-- The flags an issue clears (R130). -/
def CoreState.flagsIssued (c : CoreState) : CoreState := { c with done := false, err := false, errCode := 0#4 }

/-- The flags of a successful completion (R134). -/
def CoreState.flagsDone (c : CoreState) : CoreState := { c with done := true }

/-- The flags of an error completion (R271). -/
def CoreState.flagsError (e : JobError) (c : CoreState) : CoreState :=
  { c with errCode := e.code, err := true, done := false }

/-- All four quarters of the key were written since reset (R41, R275). -/
def CoreState.keyReady (c : CoreState) : Bool := decide (c.keyv = 0b1111#4)

end Sys2Proof.Machine
end

