-- ==== Sys2Proof/Machine/BitBuffer.lean ====
section
/-! DEFINITION. The bit-buffer unit (spec/43_bitbuffer.md R230 to R240). Internal to the engines: the host cannot
command it (C3). A bit buffer is a byte list with an explicit bit length, most significant bit first (R15, R230). -/

namespace Sys2Proof.Machine

/-- `ceil_div(a, b)`, for `b > 0` (R16). -/
def ceilDiv (a b : Nat) : Nat := (a + b - 1) / b

/-- `nbytes(L)`, the minimal byte storage of an L-bit stream (R16). -/
def nbytes (L : Nat) : Nat := ceilDiv L 8

/-- `load_bit(buf, p) = buf[p div 8][7 - (p mod 8)]` (R231), for `p < 8 * len(buf)`; beyond that the engines never
call it (log entry 13). -/
def loadBit (buf : List Byte) (p : Nat) : Bool := (buf.getD (p / 8) 0#8).getLsbD (7 - p % 8)

/-- `load_bits(buf, off, w)`: its most significant bit is stream bit `off` (R232). -/
def loadBits (buf : List Byte) (off : Nat) : (w : Nat) → BitVec w
  | 0 => 0#0
  | w + 1 => (loadBits buf off w).concat (loadBit buf (off + w))

/-- `bitstr(buf, L)` (R15, R232). -/
def bitstr (buf : List Byte) (L : Nat) : BitVec L := loadBits buf 0 L

/-- Stream bits `[off, off + w)` of an N-bit value: stream position `p` is value bit `N - 1 - p` (R15). -/
def streamBits {N : Nat} (x : BitVec N) (off w : Nat) : BitVec w := x.extractLsb' (N - off - w) w

/-- One bit of a byte list at stream position `p` (R236). -/
def storeBit (buf : List Byte) (p : Nat) (b : Bool) : List Byte :=
  buf.modify (p / 8) fun x =>
    if b then x ||| (1#8 <<< (7 - p % 8)) else x &&& ~~~(1#8 <<< (7 - p % 8))

/-- `store_bits` of the first `n` bits of `v`, most significant first (R236). -/
def storeBitsUpTo (buf : List Byte) (off : Nat) {w : Nat} (v : BitVec w) : (n : Nat) → List Byte
  | 0 => buf
  | q + 1 => storeBit (storeBitsUpTo buf off v q) (off + q) (v.getLsbD (w - 1 - q))

/-- `store_bits(buf, off, w, v)` (R236). -/
def storeBits (buf : List Byte) (off : Nat) {w : Nat} (v : BitVec w) : List Byte := storeBitsUpTo buf off v w

/-- `tailmask(L)`, for `L > 0` (R233). -/
def tailmask (L : Nat) : Byte := if L % 8 = 0 then 0xFF#8 else 0xFF#8 <<< (8 - L % 8)

/-- `maskbyte(j, L)`, for `j < nbytes(L)` (R233). -/
def maskbyte (j L : Nat) : Byte := if j < nbytes L - 1 then 0xFF#8 else tailmask L

/-- `pack(a, L)`, for `len(a) >= nbytes(L)` (R234). -/
def pack (a : List Byte) (L : Nat) : List Byte := (a.take (nbytes L)).mapIdx fun j x => x &&& maskbyte j L

/-- `xor_masked(A, B, L)`, each operand at least `nbytes(L)` long (R235). -/
def xorMasked (a b : List Byte) (L : Nat) : List Byte := pack (List.zipWith (· ^^^ ·) a b) L

/-- A field of a block: its value fits its width by its type (R237). -/
structure BitField where
  width : Nat
  value : BitVec width

/-- A (value, width) pair as a field; a value too wide for its width is refused (R237, U10). -/
def bitField? (v w : Nat) : Option BitField :=
  if fieldWf v w then some { width := w, value := BitVec.ofNat w v } else none

/-- `w_1 + ... + w_k` (R237). -/
def fieldsWidth : List BitField → Nat
  | [] => 0
  | f :: fs => f.width + fieldsWidth fs

/-- `concatFields`: `v_1 ‖ v_2 ‖ ... ‖ v_k`, the first field the most significant (R237, R14). -/
def concatFields : (fs : List BitField) → BitVec (fieldsWidth fs)
  | [] => 0#0
  | f :: fs => f.value ++ concatFields fs

/-- `concatFields` of (value, width) pairs as a number; refused where a value does not fit (R237, U10). -/
def concatPairs? (ps : List (Nat × Nat)) : Option Nat :=
  (ps.mapM fun p => bitField? p.1 p.2).map fun fs => (concatFields fs).toNat

/-- `shiftLeftOneBit`: `shl1_128(x) = (2·x) mod 2^128` (R16, R238). -/
def shl1 (x : Bits128) : Bits128 := x <<< 1

/-- `pad10star(x, v) = x ‖ 1 ‖ 0^(127 - v)` for `v <= 127`; `v = 128` is refused (R239, U9). -/
def pad10star {v : Nat} (x : BitVec v) : Option Bits128 :=
  if padWf v then some ((x ++ 1#1 ++ 0#(127 - v)).setWidth 128) else none

/-- The 16 bytes of a 128-bit block, most significant first (R161). -/
def blockBytes (b : Bits128) : List Byte := (List.range 16).map fun j => b.extractLsb' (120 - 8 * j) 8

end Sys2Proof.Machine
end

