-- ==== Sys2Proof/Machine/Operands.lean ====
section
/-! DEFINITION. The operands of both commands, assembled from state (spec/30_encoding.md R105), and the blocks the
engines build of them (R110 to R112). -/

namespace Sys2Proof.Machine

/-- The value of byte `j`, `none` if nothing has written it since reset (R53). -/
def Memory.read (m : Memory) (j : Nat) : Option Byte :=
  match m with
  | [] => none
  | (a, b) :: rest => if a = j then some b else Memory.read rest j

/-- Bytes `start .. start + n - 1`, `none` if one of them is unwritten (R302). -/
def Memory.readBytes (m : Memory) (start : Nat) : (n : Nat) → Option (List Byte)
  | 0 => some []
  | n + 1 =>
    match Memory.read m start, Memory.readBytes m (start + 1) n with
    | some b, some bs => some (b :: bs)
    | _, _ => none

/-- bitlength L = BITLEN (R105). -/
def CoreState.bits (c : CoreState) : Nat := c.bitLen.toNat

/-- bearer = CTX.BEARER[4:0], used only when CTX.BEARER <= 31 (R45, R105). -/
def CoreState.bearer5 (c : CoreState) : BitVec 5 := c.bearer.extractLsb' 0 5

/-- The message bytes IN[0..nbytes(L)-1] (R105, R160, R190). -/
def CoreState.message (c : CoreState) : Option (List Byte) := Memory.readBytes c.inBuf 0 (nbytes c.bits)

/-- CTX as the host reads it: reserved bits 31:9 read 0 (R44). -/
def CoreState.ctxWord (c : CoreState) : Word := 0#23 ++ c.direction ++ c.bearer

/-- The authentication header `H = count ‖ bearer ‖ direction ‖ 0^26` (R111, R237). -/
def header (count : Word) (bearer : BitVec 5) (direction : BitVec 1) : BitVec 64 :=
  concatFields [⟨32, count⟩, ⟨5, bearer⟩, ⟨1, direction⟩, ⟨26, 0#26⟩]

/-- The counter block `CB(i) = count ‖ bearer ‖ direction ‖ 0^26 ‖ i` (R110, R237). -/
def counterBlock (count : Word) (bearer : BitVec 5) (direction : BitVec 1) (i : BitVec 64) : Bits128 :=
  concatFields [⟨32, count⟩, ⟨5, bearer⟩, ⟨1, direction⟩, ⟨26, 0#26⟩, ⟨64, i⟩]

end Sys2Proof.Machine
end

