-- ==== Sys2Proof/Machine/Ops.lean ====
section
/-! DEFINITION. The named operations over buffers and registers, command issue (spec/40_command_protocol.md R130), the
checks of a job (spec/60_exceptions.md R277), its error completion (R271) and its successful completion (R134). An
error switches no mode and saves nothing elsewhere (R283); the way back from it is the next issue or reset (R284). -/

namespace Sys2Proof.Machine

/-- Byte `j` becomes `b`, the canonical form kept. -/
def Memory.write (m : Memory) (j : Nat) (b : Byte) : Memory :=
  match m with
  | [] => [(j, b)]
  | (a, x) :: rest =>
    if j < a then (j, b) :: (a, x) :: rest
    else if j = a then (j, b) :: rest
    else (a, x) :: Memory.write rest j b

/-- Bytes `start, start + 1, …` become `bs`. -/
def Memory.writeBytes (m : Memory) (start : Nat) : List Byte → Memory
  | [] => m
  | b :: bs => Memory.writeBytes (Memory.write m start b) (start + 1) bs

/-- The four bytes of a bus word, the lowest-numbered in bits 31:24 (R57, R77). -/
def wordBytes (v : Word) : List Byte :=
  [v.extractLsb' 24 8, v.extractLsb' 16 8, v.extractLsb' 8 8, v.extractLsb' 0 8]

/-- Bus word `j` of a byte-structured state (R57, R58, R77). -/
def wordAt (byte : Nat → Byte) (j : Nat) : Word :=
  byte (4 * j) ++ byte (4 * j + 1) ++ byte (4 * j + 2) ++ byte (4 * j + 3)

/-- `KEY[127-32n : 96-32n] <- v` (R56). -/
def keyInsert (k : Bits128) (n : Fin 4) (v : Word) : Bits128 :=
  match n with
  | 0 => v ++ k.extractLsb' 0 96
  | 1 => k.extractLsb' 96 32 ++ v ++ k.extractLsb' 0 64
  | 2 => k.extractLsb' 64 64 ++ v ++ k.extractLsb' 0 32
  | 3 => k.extractLsb' 32 96 ++ v

/-- An accepted write of KEYn (R56). -/
def CoreState.writeKey (n : Fin 4) (v : Word) (c : CoreState) : CoreState :=
  { c with key := keyInsert c.key n v, keyv := c.keyv ||| (1#4 <<< n.val) }

/-- An accepted write of CTX stores `v[8:0]` (R44, R60). -/
def CoreState.writeCtx (v : Word) (c : CoreState) : CoreState :=
  { c with bearer := v.extractLsb' 0 8, direction := v.extractLsb' 8 1 }

/-- An accepted write of IN_BUF word `j` (R57). -/
def CoreState.writeInWord (j : Nat) (v : Word) (c : CoreState) : CoreState :=
  { c with inBuf := Memory.writeBytes c.inBuf (4 * j) (wordBytes v) }

/-- Command issue: an accepted CMD write of `w`, whatever `w` is; nothing is checked (R130). -/
def CoreState.issue (w : Word) (c : CoreState) : CoreState :=
  { c.flagsIssued with jobCmd := w, phase := .busy }

/-- `raise Error(e)`: the error completion, the whole of what the block does on an error (R271, R283). -/
def CoreState.raiseError (e : JobError) (c : CoreState) : CoreState := { c.flagsError e with phase := .idle }

/-- The end of a successful completion (R134). -/
def CoreState.complete (c : CoreState) : CoreState := { c.flagsDone with phase := .idle }

/-- `check(op)`: the first error that applies, in the order of R277; the comparisons are exact (R272 to R276). -/
def check (op : Decoded) (c : CoreState) : Option JobError :=
  match op with
  | .illegal _ => some .illegalCommand
  | .instr _ =>
    if ¬ c.keyReady then some .invalidKeyLength
    else if c.bearer.toNat > 31 then some .invalidBearerRange
    else if c.bitLen.toNat > 8 * c.inLen.toNat then some .bitLengthMismatch
    else if c.bitLen.toNat > Config.maxBitLen then some .unsupportedMessageLength
    else none

/-- The state with another core, after a completion or a reset; unwritten bytes are drawn anew from here on (R75, R302). -/
def State.withCore (c : CoreState) (s : State) : State := { s with core := c, epoch := s.epoch + 1 }

/-- The state after an accepted write that leaves the core `c`: the same state if the write changed nothing (R75). -/
def State.written (c : CoreState) (s : State) : State := if c = s.core then s else s.withCore c

/-- The completion step of a decoded command: its checks first, then `perform`, which answers the core with the
outputs written (R134). -/
def runJob (i : Instr) (perform : CoreState → Host.Outcome CoreState Fault Refusal) (s : State) : Result :=
  match check (.instr i) s.core with
  | some e => .next (s.withCore (s.core.raiseError e))
  | none =>
    match perform s.core with
    | .next c => .next (s.withCore c.complete)
    | .fault r => .fault r
    | .refused r => .refused r

/-- The completion step of a job whose word decodes to nothing (R102, R276). -/
def runIllegal (s : State) : Result := .next (s.withCore (s.core.raiseError .illegalCommand))

end Sys2Proof.Machine
end

