-- ==== Sys2Proof/Machine/Confidentiality.lean ====
section
/-! DEFINITION. The confidentiality engine (spec/41_confidentiality.md R160 to R173). -/

namespace Sys2Proof.Machine

/-- The keystream bytes `KS_0 ‖ … ‖ KS_{n-1}`, `KS_i = E(k, CB(i))`, most significant byte first (R161 to R163). -/
def keystream (E : Bits128 → Bits128 → Bits128) (k : Bits128) (c : Word) (b : BitVec 5) (d : BitVec 1) (n : Nat) :
    List Byte :=
  (List.range n).flatMap fun i => blockBytes (E k (counterBlock c b d (BitVec.ofNat 64 i)))

/-- `conf_fn(key, count, bearer, direction, message, L)` over a cipher `E` (R161). -/
def confFn (E : Bits128 → Bits128 → Bits128) (k : Bits128) (c : Word) (b : BitVec 5) (d : BitVec 1) (m : List Byte)
    (L : Nat) : List Byte :=
  xorMasked m (keystream E k c b d (ceilDiv L 128)) L

/-- `perform CONF`: OUT[0..nbytes(L)-1] gets the result, nothing else changes (R160, R167, R168). A message byte that
nothing has written faults the job (R302). -/
def performConf (c : CoreState) : Host.Outcome CoreState Fault Refusal :=
  match c.message with
  | none => .fault .unwrittenInput
  | some m =>
    .next { c with
      outBuf := Memory.writeBytes c.outBuf 0
        (confFn Config.blockCipher c.key c.count c.bearer5 c.direction m c.bits) }

/-- CONF: the completion step of a job whose command is CONF (R134, R160). -/
def execConf (s : State) : Result := runJob .conf performConf s

end Sys2Proof.Machine
end

