-- ==== Sys2Proof/Machine/Integrity.lean ====
section
/-! DEFINITION. The integrity engine (spec/42_integrity.md R190 to R204). -/

namespace Sys2Proof.Machine

/-- `dbl(x)`: the one-bit shift, with 0x87 in the low byte when the top bit of `x` was set (R193). -/
def dbl (x : Bits128) : Bits128 := if x.getLsbD 127 then shl1 x ^^^ 0x87#128 else shl1 x

/-- The subkeys K1 and K2 (R194). -/
def subkeys (E : Bits128 → Bits128 → Bits128) (k : Bits128) : Bits128 × Bits128 :=
  (dbl (E k 0#128), dbl (dbl (E k 0#128)))

/-- The authentication input `M = H ‖ bitstr(message, L)` (R192). -/
def authInput (c : Word) (b : BitVec 5) (d : BitVec 1) (m : List Byte) (L : Nat) : BitVec (64 + L) :=
  header c b d ++ bitstr m L

/-- The number of blocks, `n = ceil((64 + L) / 128)` (R195). -/
def blockCount (L : Nat) : Nat := ceilDiv (64 + L) 128

/-- The width of the last block, `w = 64 + L - 128(n-1)` (R195). -/
def lastWidth (L : Nat) : Nat := 64 + L - 128 * (blockCount L - 1)

/-- `B_1 … B_{n-1}`, full and unmodified (R191, R195). -/
def fullBlocks {L : Nat} (M : BitVec (64 + L)) : List Bits128 :=
  (List.range (blockCount L - 1)).map fun j => streamBits M (128 * j) 128

/-- `B_n`: a full last block is XORed with K1, a shorter one is padded and XORed with K2 (R196). -/
def lastBlock (K : Bits128 × Bits128) {w : Nat} (x : BitVec w) : Option Bits128 :=
  if w = 128 then some (x.setWidth 128 ^^^ K.1) else (pad10star x).map (· ^^^ K.2)

/-- `C_n`: `C_0 = 0^128`, `C_j = E(k, C_{j-1} ⊕ B_j)` (R197). -/
def cbcMac (E : Bits128 → Bits128 → Bits128) (k : Bits128) (bs : List Bits128) : Bits128 :=
  bs.foldl (fun C B => E k (C ^^^ B)) 0#128

/-- `integ_fn(key, count, bearer, direction, message, L)` over a cipher `E`: the most significant 32 bits of `C_n`
(R191, R198). `none` would be a last block outside the domain of `pad10star` (U9). -/
def integFn (E : Bits128 → Bits128 → Bits128) (k : Bits128) (c : Word) (b : BitVec 5) (d : BitVec 1) (m : List Byte)
    (L : Nat) : Option Word :=
  let M := authInput c b d m L
  (lastBlock (subkeys E k) (streamBits M (128 * (blockCount L - 1)) (lastWidth L))).map fun Bn =>
    (cbcMac E k (fullBlocks M ++ [Bn])).extractLsb' 96 32

/-- `perform INTEG`: TAG gets the result, nothing else changes (R190, R200). A message byte that nothing has written
faults the job (R302). -/
def performInteg (c : CoreState) : Host.Outcome CoreState Fault Refusal :=
  match c.message with
  | none => .fault .unwrittenInput
  | some m =>
    match integFn Config.blockCipher c.key c.count c.bearer5 c.direction m c.bits with
    | none => .refused .padOutsideDomain
    | some t => .next { c with tag := t }

/-- INTEG: the completion step of a job whose command is INTEG (R134, R190). -/
def execInteg (s : State) : Result := runJob .integ performInteg s

end Sys2Proof.Machine
end

