-- ==== Sys2Proof/Machine/Dispatch.lean ====
section
/-! DEFINITION. The meaning of every command: the completion step of a job whose word decodes to it. -/

namespace Sys2Proof.Machine

def exec (i : Instr) (s : State) : Host.Outcome State Fault Refusal :=
  match i with
  | .conf => Sys2Proof.Machine.execConf s
  | .integ => Sys2Proof.Machine.execInteg s

end Sys2Proof.Machine
end

