-- ==== Sys2Proof/Machine/Bus.lean ====
section
/-! DEFINITION. The host bus: the address map (spec/10_state.md R34, spec/20_memory.md R70 to R74, R81) and what an
access does (R35 to R60, spec/40_command_protocol.md R130 to R133, spec/70_reset_and_hazards.md R302). -/

namespace Sys2Proof.Machine

/-- What an offset maps to (R34). -/
inductive Region where
  | cmd
  | status
  | count
  | ctx
  | bitLen
  | inLen
  | tag
  | key (n : Fin 4)
  /-- IN_BUF word `j`. -/
  | inBuf (j : Nat)
  /-- OUT_BUF word `j`. -/
  | outBuf (j : Nat)
  deriving DecidableEq, Repr

/-- The bus's answer to a read. -/
inductive ReadReply where
  | data (v : Word)
  | busError
  /-- STATUS held a code the block never produces (U7). -/
  | reservedErrCode
  deriving DecidableEq, Repr

/-- The bus's answer to a write: a write that is ignored completes normally too (R59, R132). -/
inductive WriteReply where
  | accepted
  | busError
  deriving DecidableEq, Repr

/-- The registers below 0x30, by offset (R34). -/
def registerAt (n : Nat) : Option Region :=
  if n = 0x00 then some .cmd
  else if n = 0x04 then some .status
  else if n = 0x08 then some .count
  else if n = 0x0C then some .ctx
  else if n = 0x10 then some .bitLen
  else if n = 0x14 then some .inLen
  else if n = 0x18 then some .tag
  else if n = 0x20 then some (.key 0)
  else if n = 0x24 then some (.key 1)
  else if n = 0x28 then some (.key 2)
  else if n = 0x2C then some (.key 3)
  else none

/-- The map of an aligned offset (R34, R74, R81). -/
def mapOffset (off : Offset) : Option Region :=
  let n := off.toNat
  if 0x100000 ≤ n ∧ n + 3 < 0x100000 + Config.bufBytes then some (.inBuf ((n - 0x100000) / 4))
  else if 0x200000 ≤ n ∧ n + 3 < 0x200000 + Config.bufBytes then some (.outBuf ((n - 0x200000) / 4))
  else registerAt n

/-- Where an access of `bytes` bytes at `off` goes: only an aligned 32-bit access to a mapped offset goes anywhere
(R72 to R74). -/
def accessTarget (off : Offset) (bytes : Nat) : Option Region :=
  if bytes = 4 ∧ off.toNat % 4 = 0 then mapOffset off else none

/-- IN byte `j` as the host sees it: a free draw if unwritten (R302), the same until the state changes (R75). -/
def State.hostInByte (s : State) (j : Nat) : Byte :=
  (Memory.read s.core.inBuf j).getD (Config.unwrittenInByte s.epoch j)

/-- OUT byte `j` as the host sees it in phase IDLE: a free draw if unwritten (R302). -/
def State.hostOutByte (s : State) (j : Nat) : Byte :=
  (Memory.read s.core.outBuf j).getD (Config.unwrittenOutByte s.epoch j)

/-- The state after an unspecified value was returned in phase BUSY: the next such read draws anew
(R18, R133), and no other read notices (R75). -/
def State.drawn (s : State) : State := { s with draws := s.draws + 1 }

/-- A read of a mapped word; no read changes the block (R75). -/
def readRegion (r : Region) (s : State) : ReadReply × State :=
  match r with
  | .cmd => (.data 0#32, s)
  | .status => (if s.core.errCode.toNat > 5 then .reservedErrCode else .data s.core.statusWord, s)
  | .count => (.data s.core.count, s)
  | .ctx => (.data s.core.ctxWord, s)
  | .bitLen => (.data s.core.bitLen, s)
  | .inLen => (.data s.core.inLen, s)
  | .tag => if s.core.busy then (.data (Config.busyTag s.draws), s.drawn) else (.data s.core.tag, s)
  | .key _ => (.data 0#32, s)
  | .inBuf j => (.data (wordAt s.hostInByte j), s)
  | .outBuf j =>
    if s.core.busy then (.data (Config.busyOutWord s.draws j), s.drawn) else (.data (wordAt s.hostOutByte j), s)

/-- A read of this word gives an unspecified value, or a byte of one: TAG and OUT_BUF in phase BUSY (R133), and a window
word with a byte that nothing has written since reset (R302). -/
def Region.unspecified (r : Region) (s : State) : Bool :=
  let unwritten (m : Memory) (j : Nat) : Bool := (Memory.readBytes m (4 * j) 4).isNone
  match r with
  | .tag => s.core.busy
  | .inBuf j => unwritten s.core.inBuf j
  | .outBuf j => s.core.busy || unwritten s.core.outBuf j
  | .cmd | .status | .count | .ctx | .bitLen | .inLen | .key _ => false

/-- The block after an accepted write in phase IDLE, `none` where the write is ignored (R35, R49, R56 to R60). -/
def writeCore (r : Region) (v : Word) (c : CoreState) : Option CoreState :=
  match r with
  | .cmd => some (c.issue v)
  | .count => some { c with count := v }
  | .ctx => some (c.writeCtx v)
  | .bitLen => some { c with bitLen := v }
  | .inLen => some { c with inLen := v }
  | .key n => some (c.writeKey n v)
  | .inBuf j => some (c.writeInWord j v)
  | .status => none
  | .tag => none
  | .outBuf _ => none

/-- A write of a mapped word: ignored in phase BUSY (R132). -/
def writeRegion (r : Region) (v : Word) (s : State) : State :=
  if s.core.busy then s
  else
    match writeCore r v s.core with
    | some c => s.written c
    | none => s

/-- `MemRead(off, bytes)` (R17): a bus error changes nothing (R73, R74, R280). -/
def busRead (off : Offset) (bytes : Nat) (s : State) : ReadReply × State :=
  match accessTarget off bytes with
  | none => (.busError, s)
  | some r => readRegion r s

/-- `MemWrite(off, bytes, v)` (R17): a bus error changes nothing (R73, R74, R280). -/
def busWrite (off : Offset) (bytes : Nat) (v : Word) (s : State) : WriteReply × State :=
  match accessTarget off bytes with
  | none => (.busError, s)
  | some r => (.accepted, writeRegion r v s)

/-- The offset a host address has in the block, `none` outside its window (R11, R70, R81). -/
def offsetOf (addr : Nat) : Option Offset :=
  if Config.base ≤ addr ∧ addr < Config.base + 2 ^ 24 then some (BitVec.ofNat 24 (addr - Config.base)) else none

end Sys2Proof.Machine
end

