-- ==== Sys2Proof/Machine/HostAgent.lean ====
section
/-! DEFINITION. The host agent: what each host operation does (spec/30_encoding.md R115), and the expansion of the
host's notation into operations (R116). -/

namespace Sys2Proof.Machine

/-- The host goes on to its next operation. -/
def State.hostNext (s : State) : State := { s with host := { s.host with next := s.host.next + 1 } }

/-- The host goes on at operation `n`. -/
def State.hostGoto (n : Nat) (s : State) : State := { s with host := { s.host with next := n } }

/-- `hN <- v`. -/
def State.setReg (r : HostReg) (v : Word) (s : State) : State :=
  { s with host := { s.host with regs := s.host.regs.set r.val v r.isLt } }

/-- The value of `hN`. -/
def State.reg (s : State) (r : HostReg) : Word := s.host.regs[r.val]'r.isLt

/-- A host read: the value goes to `use`; a bus error is a fault of the host's run (R280). -/
def hostRead (off : Offset) (bytes : Nat) (s : State) (use : Word → State → Result) : Result :=
  match busRead off bytes s with
  | (.data v, t) => use v t
  | (.busError, _) => .fault (.busError off)
  | (.reservedErrCode, _) => .fault .reservedErrCode

/-- A host write; a bus error is a fault of the host's run (R280). -/
def hostWrite (off : Offset) (bytes : Nat) (v : Word) (s : State) : Result :=
  match busWrite off bytes v s with
  | (.accepted, t) => .next t.hostNext
  | (.busError, _) => .fault (.busError off)

/-- `WR off, imm32` (R115). -/
def hostWr (off : Offset) (imm : Word) (s : State) : Result := hostWrite off 4 imm s

/-- `WRH off, hN` (R115). -/
def hostWrh (off : Offset) (src : HostReg) (s : State) : Result := hostWrite off 4 (s.reg src) s

/-- `RD hN, off` (R115). -/
def hostRd (dst : HostReg) (off : Offset) (s : State) : Result :=
  hostRead off 4 s fun v t => .next (t.setReg dst v).hostNext

/-- `AND hD, hS, imm32` (R115). -/
def hostAnd (dst src : HostReg) (imm : Word) (s : State) : Result :=
  .next (s.setReg dst (s.reg src &&& imm)).hostNext

/-- `BNZ hS, label` (R115). -/
def hostBnz (src : HostReg) (target : Nat) (s : State) : Result :=
  .next (if s.reg src ≠ 0#32 then s.hostGoto target else s.hostNext)

/-- `EXPECT off, imm32`: the test fails unless the value is `imm32` (R115, log entry 14). -/
def hostExpect (off : Offset) (imm : Word) (s : State) : Result :=
  hostRead off 4 s fun v t => if v = imm then .next t.hostNext else .fault (.expectFailed off imm v)

/-- A raw read at a host address; an address outside the block's window is refused (R81, log entry 15). -/
def hostReadAt (dst : HostReg) (addr bytes : Nat) (s : State) : Result :=
  match offsetOf addr with
  | none => .refused (.notThisBlock addr)
  | some off => hostRead off bytes s fun v t => .next (t.setReg dst v).hostNext

/-- A raw write at a host address. -/
def hostWriteAt (addr bytes : Nat) (v : Word) (s : State) : Result :=
  match offsetOf addr with
  | none => .refused (.notThisBlock addr)
  | some off => hostWrite off bytes v s

/-- One host operation. -/
def hostExec (o : HostOp) (s : State) : Result :=
  match o with
  | .wr off imm => hostWr off imm s
  | .wrh off src => hostWrh off src s
  | .rd dst off => hostRd dst off s
  | .and dst src imm => hostAnd dst src imm s
  | .bnz src target => hostBnz src target s
  | .expect off imm => hostExpect off imm s
  | .readAt dst addr bytes => hostReadAt dst addr bytes s
  | .writeAt addr bytes v => hostWriteAt addr bytes v s

/-- The read an operation makes: its offset and width (R115). -/
def hostReads (o : HostOp) : Option (Offset × Nat) :=
  match o with
  | .rd _ off => some (off, 4)
  | .expect off _ => some (off, 4)
  | .readAt _ addr bytes => (offsetOf addr).map fun off => (off, bytes)
  | .wr .. | .wrh .. | .and .. | .bnz .. | .writeAt .. => none

/-- The write an operation makes: its offset and width (R115). -/
def hostWrites (o : HostOp) : Option (Offset × Nat) :=
  match o with
  | .wr off _ => some (off, 4)
  | .wrh off _ => some (off, 4)
  | .writeAt addr bytes _ => (offsetOf addr).map fun off => (off, bytes)
  | .rd .. | .and .. | .bnz .. | .expect .. | .readAt .. => none

/-- The words `w_j` of a message: bytes 4j..4j+3, big-endian, missing bytes 0 (R116). -/
def messageWord (msg : List Byte) (j : Nat) : Word := wordAt (fun i => msg.getD i 0#8) j

/-- `WR 0x100000+4j, w_j` for every word of the message (R116). DESIGN CHOICE, log entry 22: an offset that reaches 2^24,
of a message above 15 MiB, is taken modulo 2^24, where the spec is silent. Safe: an earlier write of the same LDMSG is a
bus error, at 0x300000 at the latest. -/
def messageWrites (msg : List Byte) : List HostOp :=
  (List.range (ceilDiv msg.length 4)).map fun j =>
    .wr (BitVec.ofNat 24 (0x100000 + 4 * j)) (messageWord msg j)

/-- `POLL` placed at operation index `i`: read STATUS, keep BUSY, go back while it is 1 (R116). -/
def pollOps (i : Nat) : List HostOp := [.rd 7 0x04#24, .and 7 7 0x1#32, .bnz 7 i]

/-- The operations a line stands for, placed at operation index `i`; `find` gives a label's index (R116). DESIGN CHOICE,
log entry 22: SETCTX's `d << 8` and LDMSG's length `n` are taken as 32-bit words. -/
def expandLine (find : String → Option Nat) (i : Nat) : HostLine → Option (List HostOp)
  | .label _ => some []
  | .op o => some [o]
  | .bnz src name => (find name).map fun t => [.bnz src t]
  | .ldkey k => some
      [.wr 0x20#24 (k.extractLsb' 96 32), .wr 0x24#24 (k.extractLsb' 64 32), .wr 0x28#24 (k.extractLsb' 32 32),
        .wr 0x2C#24 (k.extractLsb' 0 32)]
  | .setctx b d => some [.wr 0x0C#24 ((d <<< 8) ||| b)]
  | .ldmsg msg => some (messageWrites msg ++ [.wr 0x14#24 (BitVec.ofNat 32 msg.length)])
  | .issue j => some [.wr 0x00#24 (encode j)]
  | .poll => some (pollOps i)
  | .run j => some (.wr 0x00#24 (encode j) :: pollOps (i + 1))

/-- The number of operations a line expands to. -/
def lineLength (l : HostLine) : Nat := ((expandLine (fun _ => some 0) 0 l).getD []).length

/-- The index of the operation a label names, the text starting at index `i` (R115). -/
def labelIndex (name : String) : (i : Nat) → List HostLine → Option Nat
  | _, [] => none
  | i, .label n :: ls => if n = name then some i else labelIndex name i ls
  | i, l :: ls => labelIndex name (i + lineLength l) ls

/-- The expansion of the lines from operation index `i` on. -/
def assembleFrom (find : String → Option Nat) : (i : Nat) → List HostLine → Option (List HostOp)
  | _, [] => some []
  | i, l :: ls =>
    match expandLine find i l, assembleFrom find (i + lineLength l) ls with
    | some os, some rest => some (os ++ rest)
    | _, _ => none

/-- The program of a host text; a text that names a label twice, or branches to none, is refused (R115, R116). -/
def assemble (ls : List HostLine) : Option (List HostOp) :=
  if hostTextWf ls then assembleFrom (fun n => labelIndex n 0 ls) 0 ls else none

end Sys2Proof.Machine
end

