-- ==== Sys2Proof/Machine/Agents.lean ====
section
/-! DEFINITION. The agents' turns: the engine's completion step (spec/40_command_protocol.md R134), the host's next
operation (spec/30_encoding.md R115), the reset input (spec/70_reset_and_hazards.md R300, R303), and whose turn it is
(spec/20_memory.md R83, spec/40_command_protocol.md R135). -/

namespace Sys2Proof.Machine

/-- The completion step; in phase IDLE it is not enabled, and the turn passes (R102, R134). -/
def engineTurn (s : State) : Result :=
  match s.core.phase with
  | .idle => .next s
  | .busy =>
    match decode s.core.jobCmd with
    | .instr i => exec i s
    | .illegal _ => runIllegal s

/-- The host's next operation; a host that has performed its last one does nothing (R153). -/
def hostTurn (s : State) : Result :=
  match s.host.program[s.host.next]? with
  | none => .next s
  | some o => hostExec o s

/-- The reset input: the block is as after power-on, whatever its phase (R300, R303). -/
def resetTurn (s : State) : Result := .next (s.withCore CoreState.reset)

/-- Whose turn it is: the schedule's first turn; when none is fixed, the engine's while a job is in flight, which is the
fairness of R135, and else the host's (log entry 2). -/
def nextTurn (s : State) : Turn :=
  match s.schedule with
  | t :: _ => t
  | [] => if s.core.busy then .engine else .host

/-- The state the turn is taken in: its entry in the schedule is used up. -/
def State.turnTaken (s : State) : State := { s with schedule := s.schedule.tail }

/-- One turn of an agent. -/
def takeTurn (t : Turn) (s : State) : Result :=
  match t with
  | .host => hostTurn s
  | .engine => engineTurn s
  | .reset => resetTurn s

/-- The state in which command word `w` is the job in flight and the engine moves next. -/
def State.withJob (w : Word) (s : State) : State :=
  { s with core := s.core.issue w, schedule := .engine :: s.schedule }

end Sys2Proof.Machine
end

