-- ==== Sys2Proof/Machine/Step.lean ====
section
/-! DEFINITION. One step: the agent whose turn it is moves (spec/20_memory.md R83). -/

namespace Sys2Proof.Machine

/-- One step of the machine. -/
def step (s : State) : Host.Outcome State Fault Refusal := takeTurn (nextTurn s) s.turnTaken

/-- `s` with the command word made of the `nbits` low bits of `w` as the job in flight, so that the very next step is
its completion: what an accepted CMD write leaves (R130), with the engine scheduled next (log entry 1). -/
def State.withFetchWord (s : State) (nbits w : Nat) : State :=
  State.withJob (BitVec.ofNat 32 (w % 2 ^ nbits)) s

end Sys2Proof.Machine
end

