-- ==== Sys2Proof/Safety.lean ====
section
/-! DEFINITION. The terms claims use: the invariant of the block, the end of a run, and which state a successful job
leaves. -/

namespace Sys2Proof.Machine

/-- STATUS is as R40 and R42 say it is in every reachable state. -/
structure CoreState.StatusOk (c : CoreState) : Prop where
  busy_quiet : c.phase = .busy → c.done = false ∧ c.err = false
  not_both : ¬ (c.done = true ∧ c.err = true)
  code_iff_err : c.errCode ≠ 0#4 ↔ c.err = true
  code_legal : c.errCode.toNat ≤ 5

/-- A buffer is in canonical form and holds only indices below BUF_BYTES (R53). -/
structure Memory.Ok (m : Memory) : Prop where
  sorted : Memory.wf m
  inRange : ∀ cell ∈ m, cell.1 < Config.bufBytes

/-- A quarter of the key that was not supplied since reset is still the reset value 0 (R52, R56, R300). -/
def CoreState.KeyOk (c : CoreState) : Prop :=
  ∀ n : Fin 4, c.keyv.getLsbD n.val = false → c.key.extractLsb' (96 - 32 * n.val) 32 = 0#32

/-- The invariant of the block. -/
structure CoreState.Inv (c : CoreState) : Prop where
  status : c.StatusOk
  inOk : Memory.Ok c.inBuf
  outOk : Memory.Ok c.outBuf
  keyOk : c.KeyOk

/-- The invariant of the machine. -/
def State.Inv (s : State) : Prop := s.core.Inv

/-- A run ends when the host has performed its last operation and the phase is IDLE (R153). -/
def State.final (s : State) : Bool := decide (s.host.program.length ≤ s.host.next) && !s.core.busy

/-- The checks of R277 pass for a legal command. -/
structure CoreState.Checks (c : CoreState) : Prop where
  key : c.keyv = 0b1111#4
  bearer : c.bearer.toNat ≤ 31
  mismatch : c.bitLen.toNat ≤ 8 * c.inLen.toNat
  ceiling : c.bitLen.toNat ≤ Config.maxBitLen

/-- Every message byte was written since reset (R151 step 3). -/
def CoreState.InputWritten (c : CoreState) : Prop :=
  ∀ j, j < nbytes c.bits → (Memory.read c.inBuf j).isSome = true

/-- The outcome is a next state. -/
def Completes (r : Result) : Prop := ∃ t, r = .next t

end Sys2Proof.Machine
end

