-- ==== Sys2Proof/Certificates/Slice0/Obligations.lean ====
section
/-! DEFINITION. The statements for the provers. Each docstring says which rule of spec/ it formalises; "model's choice"
marks what rests on a log entry. -/

open Sys2Proof Sys2Proof.Machine

/-! ## Encoding -/

/-- Decode and encode agree, both ways (30 section 1): a word is a command exactly when it is that command's word, so no
bit of OP or MBZ is dropped. -/
def Obligations.DecodeInvertsEncode : Prop :=
  ∀ (w : Word) (i : Instr), decode w = .instr i ↔ w = encode i

/-- The decoder by whole words (30 section 1), and what the engine does with its answer at completion (60 section 1).
Model's choice in the next state: JOBCMD keeps its word (log entry 20, DEDUCED) and the counter of unwritten-byte draws
advances (log entry 3, DESIGN CHOICE). -/
def Obligations.DecoderFollowsWordTable : Prop :=
  ∀ w : Word,
    (w = 0x00000001#32 → decode w = .instr .conf) ∧
    (w = 0x00000002#32 → decode w = .instr .integ) ∧
    (w ≠ 0x00000001#32 → w ≠ 0x00000002#32 → ∃ why, decode w = .illegal why) ∧
    ∀ s : State, s.core.phase = .busy → s.core.jobCmd = w →
      (w = 0x00000001#32 → engineTurn s = exec .conf s) ∧
      (w = 0x00000002#32 → engineTurn s = exec .integ s) ∧
      (w ≠ 0x00000001#32 → w ≠ 0x00000002#32 →
        engineTurn s = .next { s with
          core := { s.core with errCode := 5#4, err := true, done := false, phase := .idle }
          epoch := s.epoch + 1 })

/-- R103: an illegal word is accepted as a job, and the job ends with IllegalCommand; it is no hint and no no-op. -/
def Obligations.ReservedWordsEndWithIllegalCommand : Prop :=
  ∀ w : Word, (cmdOp w = 0#8 ∨ 3 ≤ (cmdOp w).toNat ∨ cmdMbz w ≠ 0#24) →
    (∃ why, decode w = .illegal why) ∧
    (∀ s : State, s.core.phase = .idle →
      ∃ t, busWrite 0x000000#24 4 w s = (.accepted, t) ∧ t.core.phase = .busy ∧ t.core.jobCmd = w) ∧
    ∀ s : State, s.core.phase = .busy → s.core.jobCmd = w →
      ∃ t, engineTurn s = .next t ∧ t.core.err = true ∧ t.core.errCode = 5#4 ∧ t.core.done = false ∧
        t.core.phase = .idle ∧ t.core.tag = s.core.tag ∧ t.core.outBuf = s.core.outBuf

/-- The words of the table 95 section 2.2 decode as it says (R102, R103). -/
def Obligations.TableWordsDecode : Prop :=
  decode 0x00000001#32 = .instr .conf ∧ decode 0x00000002#32 = .instr .integ ∧
  encode .conf = 0x00000001#32 ∧ encode .integ = 0x00000002#32 ∧
  decode 0x00000000#32 = .illegal (.reservedOp 0x00#8) ∧ decode 0x00000003#32 = .illegal (.reservedOp 0x03#8) ∧
  decode 0x000000FF#32 = .illegal (.reservedOp 0xFF#8) ∧ decode 0x00000101#32 = .illegal .mbzNonzero ∧
  decode 0x80000002#32 = .illegal .mbzNonzero

/-- R110, R111, R112: where every field of the header and of the counter block lies, the bytes of the counter block,
and that the header is its high half. -/
def Obligations.CounterBlockLayout : Prop :=
  ∀ (c : Word) (b : BitVec 5) (d : BitVec 1) (i : BitVec 64),
    (counterBlock c b d i).extractLsb' 96 32 = c ∧
    (counterBlock c b d i).extractLsb' 91 5 = b ∧
    (counterBlock c b d i).extractLsb' 90 1 = d ∧
    (counterBlock c b d i).extractLsb' 64 26 = 0#26 ∧
    (counterBlock c b d i).extractLsb' 0 64 = i ∧
    (header c b d).extractLsb' 32 32 = c ∧
    (header c b d).extractLsb' 27 5 = b ∧
    (header c b d).extractLsb' 26 1 = d ∧
    (header c b d).extractLsb' 0 26 = 0#26 ∧
    (counterBlock c b d i).extractLsb' 64 64 = header c b d ∧
    blockBytes (counterBlock c b d i) =
      [c.extractLsb' 24 8, c.extractLsb' 16 8, c.extractLsb' 8 8, c.extractLsb' 0 8,
        (b.setWidth 8 <<< 3) ||| (d.setWidth 8 <<< 2), 0#8, 0#8, 0#8,
        i.extractLsb' 56 8, i.extractLsb' 48 8, i.extractLsb' 40 8, i.extractLsb' 32 8,
        i.extractLsb' 24 8, i.extractLsb' 16 8, i.extractLsb' 8 8, i.extractLsb' 0 8]

/-! ## One step -/

/-- When it is the engine's turn, the phase is BUSY and JOBCMD decodes to a well-formed command, the step is `exec` of
that command; the step adds only that the turn is used up (40 section 2). -/
def Obligations.StepRunsTheDecodedCommand : Prop :=
  ∀ (s : State) (i : Instr), nextTurn s = .engine → s.core.phase = .busy → decode s.core.jobCmd = .instr i →
    i.wf = true → step s = exec i { s with schedule := s.schedule.tail }

/-! ## The commands -/

/-- CONF completes (41 section 1): for every state whose checks pass and whose message bytes were written, `exec` answers
the next state in which OUT holds the result over it, DONE is 1 and the phase is IDLE, and nothing else of the block
changed. Model's choice in it: JOBCMD keeps its word (log entry 20, DEDUCED) and the counter of unwritten-byte draws
advances (log entry 3, DESIGN CHOICE). -/
def Obligations.ConfCompletes : Prop :=
  ∀ s : State, s.core.Checks → s.core.InputWritten →
    ∃ m : List Byte, m.length = nbytes s.core.bits ∧
      (∀ j, j < nbytes s.core.bits → Memory.read s.core.inBuf j = m[j]?) ∧
      exec .conf s = .next { s with
        core := { s.core with
          outBuf := Memory.writeBytes s.core.outBuf 0
            (confFn Config.blockCipher s.core.key s.core.count (s.core.bearer.extractLsb' 0 5) s.core.direction m
              s.core.bitLen.toNat)
          done := true
          phase := .idle }
        epoch := s.epoch + 1 }

/-- INTEG completes (42 section 1): as for CONF, with TAG the result. Model's choice in the next state: JOBCMD keeps its
word (log entry 20, DEDUCED) and the counter of unwritten-byte draws advances (log entry 3, DESIGN CHOICE). -/
def Obligations.IntegCompletes : Prop :=
  ∀ s : State, s.core.Checks → s.core.InputWritten →
    ∃ (m : List Byte) (tag : Word), m.length = nbytes s.core.bits ∧
      (∀ j, j < nbytes s.core.bits → Memory.read s.core.inBuf j = m[j]?) ∧
      integFn Config.blockCipher s.core.key s.core.count (s.core.bearer.extractLsb' 0 5) s.core.direction m
        s.core.bitLen.toNat = some tag ∧
      exec .integ s = .next { s with
        core := { s.core with tag := tag, done := true, phase := .idle }
        epoch := s.epoch + 1 }

/-- R302, second item: a job that passes its checks but has an unwritten message byte faults (70 section 1). -/
def Obligations.UnwrittenInputFaultsTheJob : Prop :=
  ∀ (s : State) (i : Instr), s.core.Checks → ¬ s.core.InputWritten → exec i s = .fault .unwrittenInput

/-- The check order (60 section 2), with the error completion it leads to (60 section 1): the first failing check is the
error the job reports, and nothing of the block but ERRCODE, ERR, DONE and the phase changes; a job that passes reports
none. Model's choice in the next state: JOBCMD keeps its word (log entry 20, DEDUCED) and the counter of unwritten-byte
draws advances (log entry 3, DESIGN CHOICE). -/
def Obligations.FirstFailingCheckIsReported : Prop :=
  ∀ (s : State), s.core.phase = .busy →
    let bad (code : BitVec 4) : Result := .next { s with
      core := { s.core with errCode := code, err := true, done := false, phase := .idle }
      epoch := s.epoch + 1 }
    (∀ why, decode s.core.jobCmd = .illegal why → engineTurn s = bad 5#4) ∧
    ∀ i, decode s.core.jobCmd = .instr i →
      (s.core.keyv ≠ 0b1111#4 → engineTurn s = bad 1#4) ∧
      (s.core.keyv = 0b1111#4 → s.core.bearer.toNat > 31 → engineTurn s = bad 2#4) ∧
      (s.core.keyv = 0b1111#4 → s.core.bearer.toNat ≤ 31 → s.core.bitLen.toNat > 8 * s.core.inLen.toNat →
        engineTurn s = bad 3#4) ∧
      (s.core.keyv = 0b1111#4 → s.core.bearer.toNat ≤ 31 → s.core.bitLen.toNat ≤ 8 * s.core.inLen.toNat →
        s.core.bitLen.toNat > Config.maxBitLen → engineTurn s = bad 4#4) ∧
      (s.core.keyv = 0b1111#4 → s.core.bearer.toNat ≤ 31 → s.core.bitLen.toNat ≤ 8 * s.core.inLen.toNat →
        s.core.bitLen.toNat ≤ Config.maxBitLen → ∀ t, engineTurn s = .next t → t.core.done = true)

/-- R137, and 60 section 2: a job ends in exactly one of two ways, with DONE and no error, or with ERR, a code from 1 to 5
and neither OUT nor TAG written. -/
def Obligations.JobEndsInOneOfTwoWays : Prop :=
  ∀ s t : State, s.core.phase = .busy → s.core.StatusOk → engineTurn s = .next t →
    t.core.phase = .idle ∧
    ((t.core.done = true ∧ t.core.err = false ∧ t.core.errCode = 0#4 ∧ s.core.Checks) ∨
      (t.core.done = false ∧ t.core.err = true ∧ 1 ≤ t.core.errCode.toNat ∧ t.core.errCode.toNat ≤ 5 ∧
        t.core.outBuf = s.core.outBuf ∧ t.core.tag = s.core.tag))

/-- A job that passes its checks over a written message completes with DONE, and no job is ever refused (60 section 2):
the engine never leaves the domain of a bit-buffer primitive. -/
def Obligations.PassingJobNeverFails : Prop :=
  (∀ (s : State) (i : Instr), s.core.phase = .busy → decode s.core.jobCmd = .instr i → s.core.Checks →
      s.core.InputWritten → ∃ t, engineTurn s = .next t ∧ t.core.done = true ∧ t.core.phase = .idle) ∧
  ∀ (s : State) (r : Refusal), engineTurn s ≠ .refused r

/-- The frame of CONF (41 section 2): the inputs, TAG, KEYV, JOBCMD, the host and the schedule keep their values, and OUT
keeps every byte at or above nbytes(L), and every byte when the job fails. That JOBCMD keeps its word is the model's
choice, log entry 20 (DEDUCED). -/
def Obligations.ConfFrame : Prop :=
  ∀ s t : State, exec .conf s = .next t →
    t.host = s.host ∧ t.schedule = s.schedule ∧
    t.core.inBuf = s.core.inBuf ∧ t.core.key = s.core.key ∧ t.core.count = s.core.count ∧
    t.core.bearer = s.core.bearer ∧ t.core.direction = s.core.direction ∧ t.core.bitLen = s.core.bitLen ∧
    t.core.inLen = s.core.inLen ∧ t.core.keyv = s.core.keyv ∧ t.core.jobCmd = s.core.jobCmd ∧
    t.core.tag = s.core.tag ∧
    (∀ a, nbytes s.core.bits ≤ a → Memory.read t.core.outBuf a = Memory.read s.core.outBuf a) ∧
    (t.core.done = false → ∀ a, Memory.read t.core.outBuf a = Memory.read s.core.outBuf a) ∧
    (t.core.done = true → t.core.err = s.core.err ∧ t.core.errCode = s.core.errCode)

/-- R173 and R167: the byte form of CONF, read back from the machine's OUT, and the extent of the output. -/
def Obligations.ConfOutputBytes : Prop :=
  ∀ s : State, s.core.Checks → s.core.InputWritten →
    nbytes s.core.bits ≤ Config.bufBytes ∧
    ∃ t, exec .conf s = .next t ∧ t.core.tag = s.core.tag ∧
      (∀ j, nbytes s.core.bits ≤ j → Memory.read t.core.outBuf j = Memory.read s.core.outBuf j) ∧
      (s.core.bits = 0 → t.core.outBuf = s.core.outBuf) ∧
      ∀ j, j < nbytes s.core.bits → ∃ x, Memory.read s.core.inBuf j = some x ∧
        Memory.read t.core.outBuf j = some
          ((x ^^^ (Config.blockCipher s.core.key
              (counterBlock s.core.count (s.core.bearer.extractLsb' 0 5) s.core.direction
                (BitVec.ofNat 64 (j / 16)))).extractLsb' (120 - 8 * (j % 16)) 8) &&&
            (if j < nbytes s.core.bits - 1 then 0xFF#8 else tailmask s.core.bits))

/-- R164: output bit `p` is message bit `p` XOR its keystream bit, for any cipher. -/
def Obligations.ConfXorsBitForBit : Prop :=
  ∀ (E : Bits128 → Bits128 → Bits128) (k : Bits128) (c : Word) (b : BitVec 5) (d : BitVec 1) (m : List Byte)
    (L p : Nat), nbytes L ≤ m.length → p < L →
    loadBit (confFn E k c b d m L) p =
      (loadBit m p ^^ (E k (counterBlock c b d (BitVec.ofNat 64 (p / 128)))).getLsbD (127 - p % 128))

/-- R165: the output has nbytes(L) bytes, and the low-order `8 - (L mod 8)` bits of the last one are 0. -/
def Obligations.ConfZeroTail : Prop :=
  ∀ (E : Bits128 → Bits128 → Bits128) (k : Bits128) (c : Word) (b : BitVec 5) (d : BitVec 1) (m : List Byte)
    (L : Nat), nbytes L ≤ m.length →
    (confFn E k c b d m L).length = nbytes L ∧
    (L % 8 ≠ 0 → ∃ x, (confFn E k c b d m L)[nbytes L - 1]? = some x ∧
      ∀ i, i < 8 - L % 8 → x.getLsbD i = false)

/-- R166: the output depends on no input bit at stream position L or beyond. -/
def Obligations.ConfIgnoresDontCareBits : Prop :=
  ∀ (E : Bits128 → Bits128 → Bits128) (k : Bits128) (c : Word) (b : BitVec 5) (d : BitVec 1) (m m' : List Byte)
    (L : Nat), nbytes L ≤ m.length → nbytes L ≤ m'.length → (∀ p, p < L → loadBit m p = loadBit m' p) →
    confFn E k c b d m L = confFn E k c b d m' L

/-- R170: CONF twice is `pack`, and it is the message itself exactly when its don't-care bits are zero. -/
def Obligations.ConfIsAnInvolution : Prop :=
  ∀ (E : Bits128 → Bits128 → Bits128) (k : Bits128) (c : Word) (b : BitVec 5) (d : BitVec 1) (m : List Byte)
    (L : Nat), L ≤ Config.maxBitLen → m.length = nbytes L →
    confFn E k c b d (confFn E k c b d m L) L = pack m L ∧
    (confFn E k c b d (confFn E k c b d m L) L = m ↔
      ∀ p, L ≤ p → p < 8 * nbytes L → loadBit m p = false)

/-- R140: a job depends on the cipher under its own key only. -/
def Obligations.OnlyTheKeyEntersTheCipher : Prop :=
  ∀ (E E' : Bits128 → Bits128 → Bits128) (k : Bits128), (∀ x, E k x = E' k x) →
    ∀ (c : Word) (b : BitVec 5) (d : BitVec 1) (m : List Byte) (L : Nat),
      confFn E k c b d m L = confFn E' k c b d m L ∧ integFn E k c b d m L = integFn E' k c b d m L

/-- R192: stream bit `p` of the authentication input is header bit `p`, then message bit `p - 64`. -/
def Obligations.AuthenticationInputBits : Prop :=
  ∀ (c : Word) (b : BitVec 5) (d : BitVec 1) (m : List Byte) (L p : Nat), p < 64 + L →
    (authInput c b d m L).getLsbD (64 + L - 1 - p) =
      if p < 64 then (header c b d).getLsbD (63 - p) else loadBit m (p - 64)

/-- R195: how the authentication input is split into blocks, and that the full ones are used unmodified. -/
def Obligations.BlockSplit : Prop :=
  ∀ L : Nat, blockCount L = (64 + L + 127) / 128 ∧ 1 ≤ blockCount L ∧ 1 ≤ lastWidth L ∧ lastWidth L ≤ 128 ∧
    (blockCount L = 1 → 64 ≤ lastWidth L) ∧ 128 * (blockCount L - 1) + lastWidth L = 64 + L ∧
    ∀ M : BitVec (64 + L), (fullBlocks M).length = blockCount L - 1 ∧
      ∀ j, j < blockCount L - 1 → ∃ B, (fullBlocks M)[j]? = some B ∧
        ∀ q, q < 128 → B.getLsbD (127 - q) = M.getLsbD (64 + L - 1 - (128 * j + q))

/-- R196: a full last block is XORed with K1; a shorter one is followed by a one and zeros and XORed with K2. -/
def Obligations.LastBlockRule : Prop :=
  ∀ (K1 K2 : Bits128) (w : Nat) (x : BitVec w), 1 ≤ w → w ≤ 128 →
    ∃ B, lastBlock (K1, K2) x = some B ∧
      (w = 128 → B = x.setWidth 128 ^^^ K1) ∧
      (w < 128 → ∀ p, p < 128 →
        (B ^^^ K2).getLsbD (127 - p) = if p < w then x.getLsbD (w - 1 - p) else decide (p = w))

/-- R193: `dbl` as arithmetic on numbers. -/
def Obligations.DoublingRule : Prop :=
  ∀ x : Bits128, (dbl x).toNat =
    if x.getLsbD 127 then ((2 * x.toNat) % 2 ^ 128) ^^^ 0x87 else (2 * x.toNat) % 2 ^ 128

/-- R196, R197, R198: the chain over the full blocks from zero, unmodified, then the last block under K1 if it is full
and padded under K2 if not, cut to the top 32 bits; K1 is used exactly when (64 + L) mod 128 = 0. -/
def Obligations.TagFromTheChain : Prop :=
  ∀ (E : Bits128 → Bits128 → Bits128) (k : Bits128) (c : Word) (b : BitVec 5) (d : BitVec 1) (m : List Byte)
    (L : Nat),
    let M := authInput c b d m L
    let C := (fullBlocks M).foldl (fun C B => E k (C ^^^ B)) 0#128
    let last := streamBits M (128 * (blockCount L - 1)) (lastWidth L)
    (lastWidth L = 128 ↔ (64 + L) % 128 = 0) ∧
    ∃ B : Bits128, integFn E k c b d m L = some ((E k (C ^^^ B)).extractLsb' 96 32) ∧
      ((64 + L) % 128 = 0 → B = last.setWidth 128 ^^^ dbl (E k 0#128)) ∧
      ((64 + L) % 128 ≠ 0 → (pad10star last).map (· ^^^ dbl (dbl (E k 0#128))) = some B)

/-- R201: the tag is a function of the key, the parameters, L and the L message bits; for L = 0 of the parameters
alone. -/
def Obligations.TagDependsOnMessageBitsOnly : Prop :=
  ∀ (E : Bits128 → Bits128 → Bits128) (k : Bits128) (c : Word) (b : BitVec 5) (d : BitVec 1) (m m' : List Byte)
    (L : Nat), (∀ p, p < L → loadBit m p = loadBit m' p) →
    ∃ tag, integFn E k c b d m L = some tag ∧ integFn E k c b d m' L = some tag

/-- The frame of INTEG (42 section 4): a successful INTEG writes TAG and nothing else of the block's data; a failed one
leaves TAG too. That JOBCMD keeps its word is the model's choice, log entry 20 (DEDUCED). -/
def Obligations.IntegFrame : Prop :=
  ∀ s t : State, exec .integ s = .next t →
    t.host = s.host ∧ t.schedule = s.schedule ∧
    t.core.inBuf = s.core.inBuf ∧ t.core.outBuf = s.core.outBuf ∧ t.core.key = s.core.key ∧
    t.core.count = s.core.count ∧ t.core.bearer = s.core.bearer ∧ t.core.direction = s.core.direction ∧
    t.core.bitLen = s.core.bitLen ∧ t.core.inLen = s.core.inLen ∧ t.core.keyv = s.core.keyv ∧
    t.core.jobCmd = s.core.jobCmd ∧
    (t.core.done = false → t.core.tag = s.core.tag) ∧
    (t.core.done = true → t.core.err = s.core.err ∧ t.core.errCode = s.core.errCode ∧
      ∃ m, s.core.message = some m ∧
        integFn Config.blockCipher s.core.key s.core.count (s.core.bearer.extractLsb' 0 5) s.core.direction m
          s.core.bits = some t.core.tag)

/-- R139: two jobs with equal command word, registers and message bytes end the same way. -/
def Obligations.JobsAreDeterministic : Prop :=
  ∀ s s' t : State, s.core.phase = .busy → s'.core.phase = .busy → s.core.StatusOk → s'.core.StatusOk →
    s'.core.jobCmd = s.core.jobCmd → s'.core.key = s.core.key → s'.core.keyv = s.core.keyv →
    s'.core.count = s.core.count → s'.core.bearer = s.core.bearer → s'.core.direction = s.core.direction →
    s'.core.bitLen = s.core.bitLen → s'.core.inLen = s.core.inLen →
    (∀ j, j < nbytes s.core.bits → Memory.read s'.core.inBuf j = Memory.read s.core.inBuf j) →
    engineTurn s = .next t →
    ∃ t', engineTurn s' = .next t' ∧ t'.core.statusWord = t.core.statusWord ∧
      (t.core.done = true → decode s.core.jobCmd = .instr .conf →
        ∀ j, j < nbytes s.core.bits → Memory.read t'.core.outBuf j = Memory.read t.core.outBuf j) ∧
      (t.core.done = true → decode s.core.jobCmd = .instr .integ → t'.core.tag = t.core.tag)

/-! ## The bit-buffer unit -/

/-- R232: `load_bits` as the sum of its bits. -/
def Obligations.LoadBitsIsTheSumOfItsBits : Prop :=
  ∀ (buf : List Byte) (off w : Nat), off + w ≤ 8 * buf.length →
    (loadBits buf off w).toNat =
      ((List.range w).map fun q => (if loadBit buf (off + q) then 1 else 0) * 2 ^ (w - 1 - q)).sum

/-- R236: `store_bits` writes exactly the stream bits off .. off+w-1, and `load_bits` reads them back. -/
def Obligations.StoredBitsLoadBack : Prop :=
  ∀ (buf : List Byte) (off w : Nat) (v : BitVec w), off + w ≤ 8 * buf.length →
    (storeBits buf off v).length = buf.length ∧
    (∀ q, q < w → loadBit (storeBits buf off v) (off + q) = v.getLsbD (w - 1 - q)) ∧
    (∀ p, p < 8 * buf.length → (p < off ∨ off + w ≤ p) → loadBit (storeBits buf off v) p = loadBit buf p) ∧
    loadBits (storeBits buf off v) off w = v ∧
    (w = 0 → storeBits buf off v = buf)

/-- Building M with `store_bits` in a byte buffer gives the value the integrity engine uses (43 section 4). -/
def Obligations.AuthenticationInputIsStored : Prop :=
  ∀ (c : Word) (b : BitVec 5) (d : BitVec 1) (m : List Byte) (L : Nat),
    loadBits (storeBits (storeBits (List.replicate (nbytes (64 + L)) 0#8) 0 (header c b d)) 64 (bitstr m L)) 0
      (64 + L) = authInput c b d m L

/-- R233: the mask of the last byte, for L > 0, and of every byte. -/
def Obligations.TailMaskTable : Prop :=
  ∀ L : Nat, (0 < L → tailmask (8 * L) = 0xFF#8) ∧ tailmask (8 * L + 1) = 0x80#8 ∧ tailmask (8 * L + 2) = 0xC0#8 ∧
    tailmask (8 * L + 3) = 0xE0#8 ∧ tailmask (8 * L + 4) = 0xF0#8 ∧ tailmask (8 * L + 5) = 0xF8#8 ∧
    tailmask (8 * L + 6) = 0xFC#8 ∧ tailmask (8 * L + 7) = 0xFE#8 ∧
    ∀ j, (j < nbytes L - 1 → maskbyte j L = 0xFF#8) ∧ (j + 1 = nbytes L → maskbyte j L = tailmask L)

/-- R234: `pack` keeps the first L stream bits and zeroes the tail. -/
def Obligations.PackKeepsTheFirstBits : Prop :=
  ∀ (a : List Byte) (L : Nat), nbytes L ≤ a.length →
    (pack a L).length = nbytes L ∧
    (∀ j x, j < nbytes L → a[j]? = some x → (pack a L)[j]? = some (x &&& maskbyte j L)) ∧
    (∀ p, p < 8 * nbytes L → loadBit (pack a L) p = (decide (p < L) && loadBit a p))

/-- R235: `xor_masked` byte by byte, and twice with one operand it is `pack`. -/
def Obligations.MaskedXorRule : Prop :=
  ∀ (a b : List Byte) (L : Nat), nbytes L ≤ a.length → nbytes L ≤ b.length →
    (xorMasked a b L).length = nbytes L ∧
    (∀ j x y, j < nbytes L → a[j]? = some x → b[j]? = some y →
      (xorMasked a b L)[j]? = some ((x ^^^ y) &&& maskbyte j L)) ∧
    xorMasked (xorMasked a b L) b L = pack a L

/-- `concatFields` (43 section 5) puts the first field in the high-order bits; and it refuses a value too wide for its
field, which is 93 section 2 (U10) and the model's choice of log entry 12 (DEDUCED). -/
def Obligations.FieldConcatenation : Prop :=
  (∀ (f : BitField) (fs : List BitField),
    (concatFields (f :: fs)).toNat = f.value.toNat * 2 ^ fieldsWidth fs + (concatFields fs).toNat) ∧
  (∀ ps : List (Nat × Nat), (concatPairs? ps).isSome = true ↔ ∀ p ∈ ps, p.1 < 2 ^ p.2) ∧
  (∀ (c : Word) (b : BitVec 5) (d : BitVec 1) (i : BitVec 64),
    concatPairs? [(c.toNat, 32), (b.toNat, 5), (d.toNat, 1), (0, 26)] = some (header c b d).toNat ∧
    concatPairs? [(c.toNat, 32), (b.toNat, 5), (d.toNat, 1), (0, 26), (i.toNat, 64)] =
      some (counterBlock c b d i).toNat) ∧
  concatPairs? [(0x1C3, 32), (0, 5), (1, 1), (0, 26)] = some 0x000001C304000000

/-- R239: `pad10star` bit by bit, its equivalent form on the top bits of a block, and its refusal of v = 128. -/
def Obligations.PaddingRule : Prop :=
  (∀ (v : Nat) (x : BitVec v), v ≤ 127 → ∃ y, pad10star x = some y ∧
    ∀ p, p < 128 → y.getLsbD (127 - p) = if p < v then x.getLsbD (v - 1 - p) else decide (p = v)) ∧
  (∀ (v : Nat) (blk : Bits128), v ≤ 127 →
    pad10star (streamBits blk 0 v) =
      some ((blk &&& ~~~(BitVec.ofNat 128 (2 ^ (128 - v) - 1))) ||| BitVec.ofNat 128 (2 ^ (127 - v)))) ∧
  ∀ x : BitVec 128, pad10star x = none

/-! ## The host bus -/

/-- R130: a CMD write in phase IDLE issues a job, whatever the word is. -/
def Obligations.CommandIssue : Prop :=
  ∀ (s : State) (w : Word), s.core.phase = .idle →
    ∃ t, busWrite 0x000000#24 4 w s = (.accepted, t) ∧
      t.core = { s.core with jobCmd := w, phase := .busy, done := false, err := false, errCode := 0#4 } ∧
      t.host = s.host ∧ t.schedule = s.schedule

/-- R132: in phase BUSY every write is ignored: it completes where the offset is mapped, it is a bus error elsewhere,
and the state stays the same. -/
def Obligations.WritesWhileBusyAreIgnored : Prop :=
  ∀ (s : State) (off : Offset) (bytes : Nat) (v : Word), s.core.phase = .busy →
    (∀ r, accessTarget off bytes = some r → busWrite off bytes v s = (.accepted, s)) ∧
    (accessTarget off bytes = none → busWrite off bytes v s = (.busError, s))

/-- R133: what each register reads as in phase BUSY. TAG and OUT_BUF read as some word, unspecified. -/
def Obligations.ReadsWhileBusy : Prop :=
  ∀ s : State, s.core.phase = .busy → s.core.StatusOk →
    busRead 0x000004#24 4 s = (.data (0#20 ++ s.core.keyv ++ 0x01#8), s) ∧
    busRead 0x000008#24 4 s = (.data s.core.count, s) ∧
    busRead 0x00000C#24 4 s = (.data (0#23 ++ s.core.direction ++ s.core.bearer), s) ∧
    busRead 0x000010#24 4 s = (.data s.core.bitLen, s) ∧
    busRead 0x000014#24 4 s = (.data s.core.inLen, s) ∧
    busRead 0x000000#24 4 s = (.data 0#32, s) ∧
    (∀ n : Fin 4, busRead (BitVec.ofNat 24 (0x20 + 4 * n.val)) 4 s = (.data 0#32, s)) ∧
    (∃ v t, busRead 0x000018#24 4 s = (.data v, t) ∧ t.core = s.core) ∧
    ∀ j, 4 * j + 3 < Config.bufBytes →
      (∃ v t, busRead (BitVec.ofNat 24 (0x200000 + 4 * j)) 4 s = (.data v, t) ∧ t.core = s.core) ∧
      ∀ x0 x1 x2 x3, Memory.read s.core.inBuf (4 * j) = some x0 → Memory.read s.core.inBuf (4 * j + 1) = some x1 →
        Memory.read s.core.inBuf (4 * j + 2) = some x2 → Memory.read s.core.inBuf (4 * j + 3) = some x3 →
        busRead (BitVec.ofNat 24 (0x100000 + 4 * j)) 4 s = (.data (x0 ++ x1 ++ x2 ++ x3), s)

/-- No read has a side effect (20 section 3): the block, the host, the schedule and the values of unwritten bytes stay, and
in phase IDLE the whole state. Another read in between does not change what a read answers, but for TAG and OUT_BUF in
phase BUSY. Repeating a write of the same value, but for CMD, leaves the same state. That an unwritten byte repeats its
draw is log entry 9 (DEDUCED). -/
def Obligations.ReadsHaveNoSideEffect : Prop :=
  (∀ (off : Offset) (bytes : Nat) (s : State),
    (busRead off bytes s).2.core = s.core ∧ (busRead off bytes s).2.host = s.host ∧
    (busRead off bytes s).2.schedule = s.schedule ∧ (busRead off bytes s).2.epoch = s.epoch ∧
    (s.core.phase = .idle → (busRead off bytes s).2 = s)) ∧
  (∀ (off off' : Offset) (bytes bytes' : Nat) (s : State),
    (s.core.phase = .busy → accessTarget off bytes ≠ some .tag ∧ ∀ j, accessTarget off bytes ≠ some (.outBuf j)) →
    (busRead off bytes (busRead off' bytes' s).2).1 = (busRead off bytes s).1) ∧
  ∀ (off : Offset) (v : Word) (s : State), off ≠ 0x000000#24 →
    (busWrite off 4 v (busWrite off 4 v s).2).2 = (busWrite off 4 v s).2

/-- R73: an access of another width, or at an offset that is no multiple of 4, is a bus error without effect. -/
def Obligations.BadWidthOrAlignmentIsABusError : Prop :=
  ∀ (s : State) (off : Offset) (bytes : Nat) (v : Word), (bytes ≠ 4 ∨ off.toNat % 4 ≠ 0) →
    busRead off bytes s = (.busError, s) ∧ busWrite off bytes v s = (.busError, s)

/-- R74, with the map of 10 section 2 and BASE of 20 section 1: every mapped offset goes to the register or buffer word
it names, every other aligned 32-bit access is a bus error without effect, and a host address is BASE plus an offset. -/
def Obligations.AddressMap : Prop :=
  (accessTarget 0x000000#24 4 = some .cmd ∧ accessTarget 0x000004#24 4 = some .status ∧
    accessTarget 0x000008#24 4 = some .count ∧ accessTarget 0x00000C#24 4 = some .ctx ∧
    accessTarget 0x000010#24 4 = some .bitLen ∧ accessTarget 0x000014#24 4 = some .inLen ∧
    accessTarget 0x000018#24 4 = some .tag ∧
    (∀ n : Fin 4, accessTarget (BitVec.ofNat 24 (0x20 + 4 * n.val)) 4 = some (.key n)) ∧
    ∀ j, 4 * j + 3 < Config.bufBytes →
      accessTarget (BitVec.ofNat 24 (0x100000 + 4 * j)) 4 = some (.inBuf j) ∧
      accessTarget (BitVec.ofNat 24 (0x200000 + 4 * j)) 4 = some (.outBuf j)) ∧
  (∀ (s : State) (off : Offset) (v : Word), off.toNat % 4 = 0 →
    (off.toNat = 0x00001C ∨ (0x000030 ≤ off.toNat ∧ off.toNat ≤ 0x0FFFFF) ∨
      (∃ j, off.toNat = 0x100000 + 4 * j ∧ off.toNat ≤ 0x1FFFFF ∧ Config.bufBytes ≤ 4 * j + 3) ∨
      (∃ j, off.toNat = 0x200000 + 4 * j ∧ off.toNat ≤ 0x2FFFFF ∧ Config.bufBytes ≤ 4 * j + 3) ∨
      0x300000 ≤ off.toNat) →
    busRead off 4 s = (.busError, s) ∧ busWrite off 4 v s = (.busError, s)) ∧
  (∀ off : Offset, offsetOf (Config.base + off.toNat) = some off) ∧
  ∀ addr off, offsetOf addr = some off → addr = Config.base + off.toNat

/-- A bus error faults the host's run, whichever operation made the access and whatever its width (60 section 2, log entry
7). The raw accesses are the model's own operations (log entry 16, DESIGN CHOICE). -/
def Obligations.BusErrorFaultsTheHost : Prop :=
  ∀ (s : State) (off : Offset),
    (accessTarget off 4 = none →
      (∀ v, hostExec (.wr off v) s = .fault (.busError off)) ∧
      (∀ h, hostExec (.wrh off h) s = .fault (.busError off)) ∧
      (∀ h, hostExec (.rd h off) s = .fault (.busError off)) ∧
      ∀ v, hostExec (.expect off v) s = .fault (.busError off)) ∧
    ∀ bytes, accessTarget off bytes = none → ∀ h v,
      hostExec (.readAt h (Config.base + off.toNat) bytes) s = .fault (.busError off) ∧
      hostExec (.writeAt (Config.base + off.toNat) bytes v) s = .fault (.busError off)

/-- R56: a KEYn write in phase IDLE sets its quarter of KEY and its KEYV bit and nothing else of the block; in phase BUSY nothing; a
read gives 0. -/
def Obligations.KeyWrites : Prop :=
  ∀ (s : State) (n : Fin 4) (v : Word),
    let off := BitVec.ofNat 24 (0x20 + 4 * n.val)
    (s.core.phase = .busy → busWrite off 4 v s = (.accepted, s)) ∧
    busRead off 4 s = (.data 0#32, s) ∧
    (s.core.phase = .idle → ∃ t k kv, busWrite off 4 v s = (.accepted, t) ∧
      t.core = { s.core with key := k, keyv := kv } ∧ t.host = s.host ∧ t.schedule = s.schedule ∧
      k.extractLsb' (96 - 32 * n.val) 32 = v ∧
      (∀ i, i < 128 → (i < 96 - 32 * n.val ∨ 128 - 32 * n.val ≤ i) → k.getLsbD i = s.core.key.getLsbD i) ∧
      (∀ i, i < 4 → kv.getLsbD i = (decide (i = n.val) || s.core.keyv.getLsbD i)) ∧
      (n = 0 → k.extractLsb' 120 8 = v.extractLsb' 24 8))

/-- R57: the IN_BUF window, written in phase IDLE and read in any phase. -/
def Obligations.InputWindow : Prop :=
  ∀ (s : State) (j : Nat) (v : Word), 4 * j + 3 < Config.bufBytes →
    let off := BitVec.ofNat 24 (0x100000 + 4 * j)
    (s.core.phase = .busy → busWrite off 4 v s = (.accepted, s)) ∧
    (s.core.phase = .idle → ∃ t m, busWrite off 4 v s = (.accepted, t) ∧
      t.core = { s.core with inBuf := m } ∧ t.host = s.host ∧ t.schedule = s.schedule ∧
      Memory.read m (4 * j) = some (v.extractLsb' 24 8) ∧ Memory.read m (4 * j + 1) = some (v.extractLsb' 16 8) ∧
      Memory.read m (4 * j + 2) = some (v.extractLsb' 8 8) ∧ Memory.read m (4 * j + 3) = some (v.extractLsb' 0 8) ∧
      ∀ a, (a < 4 * j ∨ 4 * j + 3 < a) → Memory.read m a = Memory.read s.core.inBuf a) ∧
    ∃ x0 x1 x2 x3, busRead off 4 s = (.data (x0 ++ x1 ++ x2 ++ x3), s) ∧
      (∀ y, Memory.read s.core.inBuf (4 * j) = some y → x0 = y) ∧
      (∀ y, Memory.read s.core.inBuf (4 * j + 1) = some y → x1 = y) ∧
      (∀ y, Memory.read s.core.inBuf (4 * j + 2) = some y → x2 = y) ∧
      (∀ y, Memory.read s.core.inBuf (4 * j + 3) = some y → x3 = y)

/-- TAG and the OUT_BUF window (10 sections 3 and 5): in phase IDLE TAG reads as it is stored and a window word reads its
written bytes; a write of either is ignored in any phase. -/
def Obligations.OutputWindow : Prop :=
  ∀ (s : State) (v : Word),
    (s.core.phase = .idle → busRead 0x000018#24 4 s = (.data s.core.tag, s)) ∧
    busWrite 0x000018#24 4 v s = (.accepted, s) ∧
    ∀ j, 4 * j + 3 < Config.bufBytes →
      let off := BitVec.ofNat 24 (0x200000 + 4 * j)
      busWrite off 4 v s = (.accepted, s) ∧
      (s.core.phase = .idle → ∃ x0 x1 x2 x3, busRead off 4 s = (.data (x0 ++ x1 ++ x2 ++ x3), s) ∧
        (∀ y, Memory.read s.core.outBuf (4 * j) = some y → x0 = y) ∧
        (∀ y, Memory.read s.core.outBuf (4 * j + 1) = some y → x1 = y) ∧
        (∀ y, Memory.read s.core.outBuf (4 * j + 2) = some y → x2 = y) ∧
        (∀ y, Memory.read s.core.outBuf (4 * j + 3) = some y → x3 = y))

/-- R59: writes to read-only state change nothing, write-only state reads 0, reserved bits read 0 and ignore writes. -/
def Obligations.ReadOnlyAndWriteOnlyState : Prop :=
  ∀ (s : State) (v v' : Word),
    busWrite 0x000004#24 4 v s = (.accepted, s) ∧ busWrite 0x000018#24 4 v s = (.accepted, s) ∧
    (∀ j, 4 * j + 3 < Config.bufBytes → busWrite (BitVec.ofNat 24 (0x200000 + 4 * j)) 4 v s = (.accepted, s)) ∧
    busRead 0x000000#24 4 s = (.data 0#32, s) ∧
    (∀ n : Fin 4, busRead (BitVec.ofNat 24 (0x20 + 4 * n.val)) 4 s = (.data 0#32, s)) ∧
    s.core.statusWord.extractLsb' 12 20 = 0#20 ∧ s.core.statusWord.getLsbD 3 = false ∧
    (∃ w, busRead 0x00000C#24 4 s = (.data w, s) ∧ w.extractLsb' 9 23 = 0#23) ∧
    (v.extractLsb' 0 9 = v'.extractLsb' 0 9 → busWrite 0x00000C#24 4 v s = busWrite 0x00000C#24 4 v' s)

/-- R60: a write of a read-write register stores in phase IDLE and is ignored in phase BUSY, and the register reads as
stored in either phase; CTX stores v[8:0]. -/
def Obligations.ReadWriteRegisters : Prop :=
  ∀ (s : State) (v : Word),
    (s.core.phase = .idle →
      (∃ t, busWrite 0x000008#24 4 v s = (.accepted, t) ∧ t.core = { s.core with count := v } ∧
        t.host = s.host ∧ t.schedule = s.schedule) ∧
      (∃ t, busWrite 0x000010#24 4 v s = (.accepted, t) ∧ t.core = { s.core with bitLen := v } ∧
        t.host = s.host ∧ t.schedule = s.schedule) ∧
      (∃ t, busWrite 0x000014#24 4 v s = (.accepted, t) ∧ t.core = { s.core with inLen := v } ∧
        t.host = s.host ∧ t.schedule = s.schedule) ∧
      ∃ t, busWrite 0x00000C#24 4 v s = (.accepted, t) ∧ t.host = s.host ∧ t.schedule = s.schedule ∧
        t.core = { s.core with bearer := v.extractLsb' 0 8, direction := v.extractLsb' 8 1 } ∧
        busRead 0x00000C#24 4 t = (.data ((v.extractLsb' 0 9).setWidth 32), t)) ∧
    (s.core.phase = .busy → ∀ off : Offset, off ∈ [0x000008#24, 0x00000C#24, 0x000010#24, 0x000014#24, 0x000020#24,
        0x000024#24, 0x000028#24, 0x00002C#24, 0x000000#24] → busWrite off 4 v s = (.accepted, s)) ∧
    (s.core.phase = .busy → ∀ j, 4 * j + 3 < Config.bufBytes →
      busWrite (BitVec.ofNat 24 (0x100000 + 4 * j)) 4 v s = (.accepted, s)) ∧
    busRead 0x000008#24 4 s = (.data s.core.count, s) ∧ busRead 0x000010#24 4 s = (.data s.core.bitLen, s) ∧
    busRead 0x000014#24 4 s = (.data s.core.inLen, s) ∧
    busRead 0x00000C#24 4 s = (.data (0#23 ++ s.core.direction ++ s.core.bearer), s)

/-- R36: the layout of STATUS, its value after reset, and that writes to it are ignored. -/
def Obligations.StatusLayout : Prop :=
  (∀ c : CoreState,
    c.statusWord.getLsbD 0 = decide (c.phase = .busy) ∧ c.statusWord.getLsbD 1 = c.done ∧
    c.statusWord.getLsbD 2 = c.err ∧ c.statusWord.getLsbD 3 = false ∧ c.statusWord.extractLsb' 4 4 = c.errCode ∧
    c.statusWord.extractLsb' 8 4 = c.keyv ∧ c.statusWord.extractLsb' 12 20 = 0#20) ∧
  CoreState.reset.statusWord = 0x00000000#32 ∧
  ∀ (s : State) (v : Word), s.core.StatusOk →
    busRead 0x000004#24 4 s = (.data s.core.statusWord, s) ∧ busWrite 0x000004#24 4 v s = (.accepted, s)

/-- No access shows the key where the spec gives it a value (10 section 4): two states that differ in KEY and in the draw
counters answer alike every read whose value is specified, and the host's turn in them, if it makes no other read, does
the same. Left out are the reads of unspecified values, TAG and OUT_BUF in phase BUSY and unwritten bytes, which the
hardware may make depend on the key (log entry 3). -/
def Obligations.KeyCannotBeRead : Prop :=
  ∀ (s : State) (k : Bits128) (d e : Nat),
    let s' : State := { s with core := { s.core with key := k }, draws := d, epoch := e }
    (∀ off bytes, (∀ r, accessTarget off bytes = some r → r.unspecified s = false) →
      (busRead off bytes s').1 = (busRead off bytes s).1) ∧
    ∀ t, (∀ o off bytes r, s.host.program[s.host.next]? = some o → hostReads o = some (off, bytes) →
        accessTarget off bytes = some r → r.unspecified s = false) →
      hostTurn s = .next t → ∃ t', hostTurn s' = .next t' ∧ t'.host = t.host ∧
        { t'.core with key := t.core.key } = t.core

/-! ## The host's operations -/

/-- What each host operation does (30 section 4): WR, WRH, RD and EXPECT over the bus, AND and BNZ without it, all in
phase IDLE or BUSY. Model's choices: a failed EXPECT ends the run in a fault (log entry 14), the raw accesses exist (log
entry 16; a word access at a host address is the RD or WR of its offset), and one outside the window is refused (log
entry 15). -/
def Obligations.HostOperations : Prop :=
  ∀ (s : State) (off : Offset) (imm : Word) (hd hs : HostReg) (n : Nat),
    (accessTarget off 4 ≠ none →
      ∃ t, hostExec (.wr off imm) s = .next t ∧ t.core = (busWrite off 4 imm s).2.core ∧
        t.host = { s.host with next := s.host.next + 1 }) ∧
    (accessTarget off 4 ≠ none →
      ∃ t, hostExec (.wrh off hs) s = .next t ∧ t.core = (busWrite off 4 (s.reg hs) s).2.core ∧
        t.host = { s.host with next := s.host.next + 1 }) ∧
    (∀ v, (busRead off 4 s).1 = .data v →
      ∃ t, hostExec (.rd hd off) s = .next t ∧ t.core = s.core ∧ t.reg hd = v ∧
        (∀ r, r ≠ hd → t.reg r = s.reg r) ∧ t.host.next = s.host.next + 1 ∧ t.host.program = s.host.program) ∧
    (∀ v, (busRead off 4 s).1 = .data v →
      (v = imm → ∃ t, hostExec (.expect off imm) s = .next t ∧ t.core = s.core ∧
        t.host = { s.host with next := s.host.next + 1 }) ∧
      (v ≠ imm → hostExec (.expect off imm) s = .fault (.expectFailed off imm v))) ∧
    (∃ t, hostExec (.and hd hs imm) s = .next t ∧ t.core = s.core ∧ t.reg hd = s.reg hs &&& imm ∧
      (∀ r, r ≠ hd → t.reg r = s.reg r) ∧ t.host.next = s.host.next + 1 ∧ t.host.program = s.host.program) ∧
    hostExec (.bnz hs n) s =
      .next { s with host := { s.host with next := if s.reg hs ≠ 0#32 then n else s.host.next + 1 } } ∧
    hostExec (.readAt hd (Config.base + off.toNat) 4) s = hostExec (.rd hd off) s ∧
    hostExec (.writeAt (Config.base + off.toNat) 4 imm) s = hostExec (.wr off imm) s ∧
    ∀ addr bytes, (addr < Config.base ∨ Config.base + 2 ^ 24 ≤ addr) →
      hostExec (.readAt hd addr bytes) s = .refused (.notThisBlock addr) ∧
      hostExec (.writeAt addr bytes imm) s = .refused (.notThisBlock addr)

/-- What each pseudo-instruction expands to, and the disassembly of a CMD word (30 section 4). Model's choice, log entry 22
(DESIGN CHOICE): an LDMSG offset that reaches 2^24 is taken modulo 2^24, and SETCTX's shift and LDMSG's length as 32-bit
words. -/
def Obligations.PseudoInstructionExpansions : Prop :=
  ∀ (find : String → Option Nat) (i : Nat),
    (∀ k : Bits128, expandLine find i (.ldkey k) =
      some [.wr 0x20#24 (k.extractLsb' 96 32), .wr 0x24#24 (k.extractLsb' 64 32), .wr 0x28#24 (k.extractLsb' 32 32),
        .wr 0x2C#24 (k.extractLsb' 0 32)]) ∧
    (∀ b d : Word, expandLine find i (.setctx b d) = some [.wr 0x0C#24 ((d <<< 8) ||| b)]) ∧
    (∀ msg : List Byte, ∃ os, expandLine find i (.ldmsg msg) = some (os ++ [.wr 0x14#24 (BitVec.ofNat 32 msg.length)]) ∧
      os.length = (msg.length + 3) / 4 ∧
      ∀ j, j < (msg.length + 3) / 4 → os[j]? = some (.wr (BitVec.ofNat 24 (0x100000 + 4 * j))
        (msg.getD (4 * j) 0#8 ++ msg.getD (4 * j + 1) 0#8 ++ msg.getD (4 * j + 2) 0#8 ++ msg.getD (4 * j + 3) 0#8))) ∧
    expandLine find i (.issue .conf) = some [.wr 0x00#24 0x00000001#32] ∧
    expandLine find i (.issue .integ) = some [.wr 0x00#24 0x00000002#32] ∧
    expandLine find i .poll = some [.rd 7 0x04#24, .and 7 7 0x1#32, .bnz 7 i] ∧
    (∀ op, ∃ a b, expandLine find i (.issue op) = some a ∧ expandLine find (i + a.length) .poll = some b ∧
      expandLine find i (.run op) = some (a ++ b)) ∧
    disassemble 0x00000001#32 = "CONF" ∧ disassemble 0x00000002#32 = "INTEG" ∧
    ∀ w, w ≠ 0x00000001#32 → w ≠ 0x00000002#32 → disassemble w = ".word 0x" ++ String.ofList (hexWord w)

/-- A label names the next operation (30 section 4): in the program of a host text every line's operations stand at the
place where the lines before it end, every branch to a label goes to the place where that label stands, and the lines
fill the program. A text has a program exactly when it is well formed, which is log entry 22 (DESIGN CHOICE). -/
def Obligations.LabelsNameTheNextOperation : Prop :=
  (∀ ls : List HostLine, (assemble ls).isSome = hostTextWf ls) ∧
  ∀ (ls : List HostLine) (p : List HostOp), assemble ls = some p →
    let place (before : List HostLine) : Nat := (before.map lineLength).sum
    p.length = place ls ∧
    (∀ before l after, ls = before ++ l :: after →
      ∃ find os, expandLine find (place before) l = some os ∧ os.length = lineLength l ∧
        ∀ i, i < os.length → p[place before + i]? = os[i]?) ∧
    ∀ before src name after, ls = before ++ .bnz src name :: after →
      ∃ before' after', ls = before' ++ .label name :: after' ∧ p[place before]? = some (.bnz src (place before'))

/-! ## Reset -/

/-- R300 and R303: at power-on, and after the reset input in any phase, the block is fresh; a job in flight is
abandoned. JOBCMD is unspecified: nothing is said of it. -/
def Obligations.ResetState : Prop :=
  let fresh (c : CoreState) : Prop :=
    c.phase = .idle ∧ c.statusWord = 0x00000000#32 ∧ c.done = false ∧ c.err = false ∧ c.errCode = 0#4 ∧
    c.keyv = 0b0000#4 ∧ c.count = 0#32 ∧ c.ctxWord = 0#32 ∧ c.bitLen = 0#32 ∧ c.inLen = 0#32 ∧ c.tag = 0#32 ∧
    c.key = 0#128 ∧ (∀ j, Memory.read c.inBuf j = none) ∧ ∀ j, Memory.read c.outBuf j = none
  fresh State.reset.core ∧
  ∀ s : State, nextTurn s = .reset →
    ∃ t, step s = .next t ∧ fresh t.core ∧ t.host = s.host ∧ t.schedule = s.schedule.tail

/-! ## The whole machine -/

/-- The invariant holds right after reset. -/
def Obligations.ResetMeetsTheInvariant : Prop := State.reset.Inv

/-- Every step keeps the invariant: STATUS as R42 and R40 say, the buffers in canonical form and inside BUF_BYTES, and
a key quarter that was not supplied still 0. -/
def Obligations.StepKeepsTheInvariant : Prop := ∀ s t : State, s.Inv → step s = .next t → t.Inv

/-- The invariants of R42 on the STATUS word: right after reset the invariant holds, whatever host program and schedule
are loaded, and they hold along every run from a state that meets it. -/
def Obligations.StatusInvariantsAlongRuns : Prop :=
  (∀ s : State, s.core = CoreState.reset → s.Inv) ∧
  ∀ (k : Nat) (s t : State), s.Inv → Sys2Proof.core.run k s = .next t →
    (t.core.statusWord.getLsbD 0 = true →
      t.core.statusWord.getLsbD 1 = false ∧ t.core.statusWord.getLsbD 2 = false) ∧
    ¬ (t.core.statusWord.getLsbD 1 = true ∧ t.core.statusWord.getLsbD 2 = true) ∧
    (t.core.statusWord.getLsbD 2 = false → t.core.statusWord.extractLsb' 4 4 = 0#4) ∧
    t.core.statusWord.getLsbD 3 = false ∧ t.core.statusWord.extractLsb' 12 20 = 0#20

/-- Only reset clears a KEYV bit (10 section 3), and only the host's writes in phase IDLE set one: bit n changes only by a
word write to the offset of KEYn, 0x20 + 4n. -/
def Obligations.OnlyResetClearsKeyValid : Prop :=
  ∀ (s t : State) (n : Nat), step s = .next t → nextTurn s ≠ .reset →
    (s.core.keyv.getLsbD n = true → t.core.keyv.getLsbD n = true) ∧
    (t.core.keyv ≠ s.core.keyv → nextTurn s = .host ∧ s.core.phase = .idle) ∧
    (t.core.keyv.getLsbD n ≠ s.core.keyv.getLsbD n →
      ∃ o off, s.host.program[s.host.next]? = some o ∧ hostWrites o = some (off, 4) ∧ off.toNat = 0x20 + 4 * n ∧ n < 4)

/-- Only a successful INTEG and reset write TAG; only a successful CONF and reset write OUT (10 sections 3 and 5). -/
def Obligations.OnlyTheEnginesWriteResults : Prop :=
  ∀ s t : State, step s = .next t → nextTurn s ≠ .reset →
    (t.core.tag ≠ s.core.tag → nextTurn s = .engine ∧ s.core.phase = .busy ∧
      decode s.core.jobCmd = .instr .integ ∧ t.core.done = true) ∧
    (t.core.outBuf ≠ s.core.outBuf → nextTurn s = .engine ∧ s.core.phase = .busy ∧
      decode s.core.jobCmd = .instr .conf ∧ t.core.done = true)

/-- No input of a job changes between its issue and its completion (40 section 1); while BUSY the host's turns leave the
whole block as it is, and the completion itself leaves every input (40 section 2, 41 section 2, 42 section 4, 60 section
1). That the completion keeps JOBCMD is the model's choice, log entry 20 (DEDUCED). -/
def Obligations.JobInputsAreFrozen : Prop :=
  ∀ s t : State, s.core.phase = .busy → nextTurn s ≠ .reset → step s = .next t →
    (nextTurn s = .host → t.core = s.core) ∧
    t.core.key = s.core.key ∧ t.core.keyv = s.core.keyv ∧ t.core.count = s.core.count ∧
    t.core.bearer = s.core.bearer ∧ t.core.direction = s.core.direction ∧ t.core.bitLen = s.core.bitLen ∧
    t.core.inLen = s.core.inLen ∧ t.core.inBuf = s.core.inBuf ∧ t.core.jobCmd = s.core.jobCmd

/-- Every job completes (40 section 2): from a BUSY state, within one step more than the schedule lists, the run is in
phase IDLE or has stopped; the host's turns alone never end the wait. Which turn follows an exhausted schedule is log
entry 2. -/
def Obligations.EveryJobCompletes : Prop :=
  (∀ s t : State, s.core.phase = .busy → hostTurn s = .next t → t.core.phase = .busy) ∧
  (∀ s : State, s.core.phase = .busy →
    ∃ k, k ≤ s.schedule.length + 1 ∧
      ((∃ t, Sys2Proof.core.run k s = .next t ∧ t.core.phase = .idle) ∨
        (∃ r, Sys2Proof.core.run k s = .fault r) ∨ ∃ r, Sys2Proof.core.run k s = .refused r)) ∧
  ∀ s : State, s.core.phase = .busy → s.host.program.length ≤ s.host.next → s.core.InputWritten →
    ∃ k t, k ≤ s.schedule.length + 1 ∧ Sys2Proof.core.run k s = .next t ∧ t.core.phase = .idle
end

