-- ==== Sys2Proof/Laws/BitBuffer.lean ====
section
/-! SUPPORT. The laws of the bit-buffer unit and of the blocks the engines build: each primitive bit by bit. -/

namespace Sys2Proof.Machine

theorem nbytes_le_iff {L n : Nat} : nbytes L ≤ n ↔ L ≤ 8 * n := by
  simp only [nbytes, ceilDiv]; omega

theorem lt_nbytes_iff {L j : Nat} : j < nbytes L ↔ 8 * j < L := by
  simp only [nbytes, ceilDiv]; omega

@[simp] theorem nbytes_zero : nbytes 0 = 0 := by decide

/-- Enough keystream blocks: `nbytes(L) <= 16 * ceil_div(L, 128)` (R163). -/
theorem nbytes_le_blocks (L : Nat) : nbytes L ≤ 16 * ceilDiv L 128 := by
  simp only [nbytes, ceilDiv]; omega

theorem loadBit_of_getElem? {buf : List Byte} {p : Nat} {x : Byte} (h : buf[p / 8]? = some x) :
    loadBit buf p = x.getLsbD (7 - p % 8) := by
  simp [loadBit, List.getD_eq_getElem?_getD, h]

/-- R232: bit `i` of `load_bits(buf, off, w)` is stream bit `off + (w - 1 - i)`. -/
theorem loadBits_getLsbD (buf : List Byte) (off w i : Nat) :
    (loadBits buf off w).getLsbD i = (decide (i < w) && loadBit buf (off + (w - 1 - i))) := by
  induction w generalizing i with
  | zero => simp [loadBits]
  | succ w ih =>
    simp only [loadBits, BitVec.getLsbD_concat]
    cases i with
    | zero => simp
    | succ i =>
      have h : w + 1 - 1 - (i + 1) = w - 1 - i := by omega
      simp only [ih, h]
      simp

/-- Bit `i` of a slice of a stream. -/
theorem streamBits_getLsbD {N : Nat} (x : BitVec N) (off w i : Nat) :
    (streamBits x off w).getLsbD i = (decide (i < w) && x.getLsbD (N - off - w + i)) := by
  simp [streamBits, BitVec.getLsbD_extractLsb']

/-- R14: `(a ‖ b) = a * 2^n + b`. -/
theorem append_toNat {m n : Nat} (a : BitVec m) (b : BitVec n) : (a ++ b).toNat = a.toNat * 2 ^ n + b.toNat := by
  rw [BitVec.toNat_append, ← Nat.shiftLeft_add_eq_or_of_lt b.isLt, Nat.shiftLeft_eq]

/-- R237: the first field is the most significant. -/
theorem concatFields_toNat (f : BitField) (fs : List BitField) :
    (concatFields (f :: fs)).toNat = f.value.toNat * 2 ^ fieldsWidth fs + (concatFields fs).toNat :=
  append_toNat _ _

theorem concatFields_nil_toNat : (concatFields []).toNat = 0 := rfl

/-- R111: the header, field by field. -/
theorem header_toNat (c : Word) (b : BitVec 5) (d : BitVec 1) :
    (header c b d).toNat = c.toNat * 2 ^ 32 + b.toNat * 2 ^ 27 + d.toNat * 2 ^ 26 := by
  have h : (header c b d).toNat = (concatFields [⟨32, c⟩, ⟨5, b⟩, ⟨1, d⟩, ⟨26, 0#26⟩]).toNat := rfl
  rw [h]
  simp only [concatFields_toNat, concatFields_nil_toNat]
  simp only [fieldsWidth, BitVec.toNat_ofNat]
  omega

/-- R110: the counter block, field by field. -/
theorem counterBlock_toNat (c : Word) (b : BitVec 5) (d : BitVec 1) (i : BitVec 64) :
    (counterBlock c b d i).toNat = c.toNat * 2 ^ 96 + b.toNat * 2 ^ 91 + d.toNat * 2 ^ 90 + i.toNat := by
  have h : (counterBlock c b d i).toNat =
      (concatFields [⟨32, c⟩, ⟨5, b⟩, ⟨1, d⟩, ⟨26, 0#26⟩, ⟨64, i⟩]).toNat := rfl
  rw [h]
  simp only [concatFields_toNat, concatFields_nil_toNat]
  simp only [fieldsWidth, BitVec.toNat_ofNat]
  omega

theorem pack_length (a : List Byte) (L : Nat) : (pack a L).length = min (nbytes L) a.length := by
  simp [pack]

/-- R234: byte `j` of `pack(a, L)`. -/
theorem pack_getElem? (a : List Byte) (L j : Nat) :
    (pack a L)[j]? = if j < nbytes L then a[j]?.map (· &&& maskbyte j L) else none := by
  simp only [pack, List.getElem?_mapIdx, List.getElem?_take]
  split <;> simp

theorem xorMasked_length (a b : List Byte) (L : Nat) :
    (xorMasked a b L).length = min (nbytes L) (min a.length b.length) := by
  simp [xorMasked, pack_length]

/-- R235: byte `j` of `xor_masked(A, B, L)`. -/
theorem xorMasked_getElem? {a b : List Byte} {x y : Byte} {L j : Nat} (hj : j < nbytes L) (ha : a[j]? = some x)
    (hb : b[j]? = some y) : (xorMasked a b L)[j]? = some ((x ^^^ y) &&& maskbyte j L) := by
  simp [xorMasked, pack_getElem?, hj, List.getElem?_zipWith, ha, hb]

@[simp] theorem blockBytes_length (b : Bits128) : (blockBytes b).length = 16 := by simp [blockBytes]

theorem blockBytes_getElem? {b : Bits128} {j : Nat} (h : j < 16) :
    (blockBytes b)[j]? = some (b.extractLsb' (120 - 8 * j) 8) := by
  simp [blockBytes, h]

/-- R163: `n` blocks give `16 * n` bytes. -/
theorem keystream_length (E : Bits128 → Bits128 → Bits128) (k : Bits128) (c : Word) (b : BitVec 5) (d : BitVec 1)
    (n : Nat) : (keystream E k c b d n).length = 16 * n := by
  induction n with
  | zero => simp [keystream]
  | succ n ih =>
    simp only [keystream] at ih
    simp [keystream, List.range_succ, ih]
    omega

/-- R173: keystream byte `j` comes from block `j div 16`. -/
theorem keystream_getElem? (E : Bits128 → Bits128 → Bits128) (k : Bits128) (c : Word) (b : BitVec 5) (d : BitVec 1)
    {n j : Nat} (h : j < 16 * n) :
    (keystream E k c b d n)[j]? =
      some ((E k (counterBlock c b d (BitVec.ofNat 64 (j / 16)))).extractLsb' (120 - 8 * (j % 16)) 8) := by
  induction n with
  | zero => omega
  | succ n ih =>
    have hs : keystream E k c b d (n + 1) =
        keystream E k c b d n ++ blockBytes (E k (counterBlock c b d (BitVec.ofNat 64 n))) := by
      simp [keystream, List.range_succ]
    rw [hs]
    by_cases hj : j < 16 * n
    · rw [List.getElem?_append_left (by rw [keystream_length]; exact hj), ih hj]
    · have h1 : j / 16 = n := by omega
      have h2 : j - 16 * n = j % 16 := by omega
      rw [List.getElem?_append_right (by rw [keystream_length]; omega), keystream_length, h2,
        blockBytes_getElem? (by omega), h1]

/-- R233: bit `7 - i` of the mask of byte `j` says whether stream position `8j + i` is inside the L bits. -/
theorem maskbyte_getLsbD {j i L : Nat} (hj : j < nbytes L) (hi : i < 8) :
    (maskbyte j L).getLsbD (7 - i) = decide (8 * j + i < L) := by
  have hj' := lt_nbytes_iff.mp hj
  unfold maskbyte
  split
  · rename_i h
    have h1 : 8 * j + i < L := by simp only [nbytes, ceilDiv] at h; omega
    have h2 : ∀ i : Fin 8, (0xFF#8).getLsbD (7 - i.val) = true := by decide
    simp [h1, h2 ⟨i, hi⟩]
  · rename_i h
    have h0 : nbytes L = j + 1 := by omega
    have h3 : L ≤ 8 * (j + 1) := nbytes_le_iff.mp (by omega)
    unfold tailmask
    split
    · have h1 : 8 * j + i < L := by omega
      have h2 : ∀ i : Fin 8, (0xFF#8).getLsbD (7 - i.val) = true := by decide
      simp [h1, h2 ⟨i, hi⟩]
    · have h2 : ∀ (r i : Fin 8), r.val ≠ 0 →
          (0xFF#8 <<< (8 - r.val)).getLsbD (7 - i.val) = decide (i.val < r.val) := by decide
      rw [h2 ⟨L % 8, by omega⟩ ⟨i, hi⟩ (by simpa using by omega)]
      simp only [decide_eq_decide]
      omega

/-- R161: CONF answers exactly `nbytes(L)` bytes. -/
theorem confFn_length (E : Bits128 → Bits128 → Bits128) (k : Bits128) (c : Word) (b : BitVec 5) (d : BitVec 1)
    {m : List Byte} {L : Nat} (h : nbytes L ≤ m.length) : (confFn E k c b d m L).length = nbytes L := by
  have := nbytes_le_blocks L
  simp only [confFn, xorMasked_length, keystream_length]
  omega

/-- R173: output byte `j`. -/
theorem confFn_getElem? (E : Bits128 → Bits128 → Bits128) (k : Bits128) (c : Word) (b : BitVec 5) (d : BitVec 1)
    {m : List Byte} {L j : Nat} {x : Byte} (hj : j < nbytes L) (hx : m[j]? = some x) :
    (confFn E k c b d m L)[j]? = some ((x ^^^
      (E k (counterBlock c b d (BitVec.ofNat 64 (j / 16)))).extractLsb' (120 - 8 * (j % 16)) 8) &&& maskbyte j L) := by
  have h := nbytes_le_blocks L
  exact xorMasked_getElem? hj hx (keystream_getElem? E k c b d (by omega))

/-- R195: the last block is never empty and never longer than a block. -/
theorem lastWidth_bounds (L : Nat) : 1 ≤ blockCount L ∧ 1 ≤ lastWidth L ∧ lastWidth L ≤ 128 ∧
    128 * (blockCount L - 1) + lastWidth L = 64 + L := by
  simp only [lastWidth, blockCount, ceilDiv]; omega

/-- R239: `pad10star` answers on its whole domain. -/
theorem pad10star_isSome {v : Nat} (x : BitVec v) (h : v ≤ 127) : (pad10star x).isSome = true := by
  simp [pad10star, padWf, h]

theorem lastBlock_isSome (K : Bits128 × Bits128) {w : Nat} (x : BitVec w) (h : w ≤ 128) :
    (lastBlock K x).isSome = true := by
  unfold lastBlock
  split
  · rfl
  · simp [pad10star_isSome x (by omega)]

/-- U9: INTEG never leaves the domain of `pad10star`. -/
theorem integFn_isSome (E : Bits128 → Bits128 → Bits128) (k : Bits128) (c : Word) (b : BitVec 5) (d : BitVec 1)
    (m : List Byte) (L : Nat) : (integFn E k c b d m L).isSome = true := by
  simp [integFn, lastBlock_isSome _ _ (lastWidth_bounds L).2.2.1]

end Sys2Proof.Machine
end

