-- ==== Sys2Proof/Laws/Memory.lean ====
section
/-! SUPPORT. The laws of the sparse buffers: reading after writing, and that every operation keeps the canonical form. -/

namespace Sys2Proof.Machine

@[simp] theorem Memory.read_nil (j : Nat) : Memory.read [] j = none := rfl

theorem Memory.read_cons (cell : Host.Cell) (m : Memory) (j : Nat) :
    Memory.read (cell :: m) j = if cell.1 = j then some cell.2 else Memory.read m j := rfl

/-- A byte reads as what was written to it last, every other byte as before. -/
theorem Memory.read_write (m : Memory) (j : Nat) (b : Byte) (i : Nat) :
    Memory.read (Memory.write m j b) i = if i = j then some b else Memory.read m i := by
  induction m with
  | nil => simp [Memory.write, Memory.read, eq_comm]
  | cons cell m ih =>
    obtain ⟨a, x⟩ := cell
    simp only [Memory.write]
    split
    · simp only [Memory.read_cons, eq_comm (a := i)]
    · split
      · rename_i h
        subst h
        simp only [Memory.read_cons, eq_comm (a := i)]
        by_cases h : j = i <;> simp [h]
      · simp only [Memory.read_cons, ih]
        by_cases h : a = i
        · have : ¬ i = j := by omega
          simp [h, this]
        · simp [h]

@[simp] theorem Memory.read_write_same (m : Memory) (j : Nat) (b : Byte) :
    Memory.read (Memory.write m j b) j = some b := by simp [Memory.read_write]

theorem Memory.read_write_other (m : Memory) {j i : Nat} (b : Byte) (h : i ≠ j) :
    Memory.read (Memory.write m j b) i = Memory.read m i := by simp [Memory.read_write, h]

/-- The cells after a write: the written one, or cells from before. -/
theorem Memory.mem_write {m : Memory} {j : Nat} {b : Byte} {cell : Host.Cell} (h : cell ∈ Memory.write m j b) :
    cell = (j, b) ∨ cell ∈ m := by
  induction m with
  | nil => simpa [Memory.write] using h
  | cons c m ih =>
    obtain ⟨a, x⟩ := c
    simp only [Memory.write] at h
    split at h
    · simp only [List.mem_cons] at h ⊢; tauto
    · split at h
      · simp only [List.mem_cons] at h ⊢; tauto
      · simp only [List.mem_cons] at h ⊢
        rcases h with h | h
        · tauto
        · rcases ih h with h | h <;> tauto

/-- A write keeps the canonical form. -/
theorem Memory.write_wf {m : Memory} (h : Memory.wf m) (j : Nat) (b : Byte) : Memory.wf (Memory.write m j b) := by
  induction m with
  | nil => simp [Memory.write]
  | cons c m ih =>
    obtain ⟨a, x⟩ := c
    obtain ⟨h1, h2⟩ := List.pairwise_cons.mp h
    simp only [Memory.write]
    split
    · refine List.pairwise_cons.mpr ⟨?_, h⟩
      intro c hc
      rcases List.mem_cons.mp hc with rfl | hc
      · assumption
      · have := h1 c hc; simp only at this ⊢; omega
    · split
      · subst_vars
        exact List.pairwise_cons.mpr ⟨h1, h2⟩
      · refine List.pairwise_cons.mpr ⟨?_, ih h2⟩
        intro c hc
        rcases Memory.mem_write hc with rfl | hc
        · simp only; omega
        · exact h1 c hc

/-- Writing several bytes: byte `i` is the written one inside the range, as before outside. -/
theorem Memory.read_writeBytes (m : Memory) (start : Nat) (bs : List Byte) (i : Nat) :
    Memory.read (Memory.writeBytes m start bs) i =
      if start ≤ i ∧ i < start + bs.length then bs[i - start]? else Memory.read m i := by
  induction bs generalizing m start with
  | nil =>
    have : ¬ (start ≤ i ∧ i < start + 0) := by omega
    simp [Memory.writeBytes]
  | cons b bs ih =>
    simp only [Memory.writeBytes, ih, Memory.read_write, List.length_cons]
    by_cases h1 : i = start
    · subst h1
      have h2 : ¬ (i + 1 ≤ i ∧ i < i + 1 + bs.length) := by omega
      have h3 : i ≤ i ∧ i < i + (bs.length + 1) := by omega
      simp [h3]
    · by_cases h2 : start + 1 ≤ i ∧ i < start + 1 + bs.length
      · have h3 : start ≤ i ∧ i < start + (bs.length + 1) := by omega
        have h4 : i - start = (i - (start + 1)) + 1 := by omega
        rw [if_pos h2, if_pos h3, h4, List.getElem?_cons_succ]
      · have h3 : ¬ (start ≤ i ∧ i < start + (bs.length + 1)) := by omega
        rw [if_neg h2, if_neg h1, if_neg h3]

/-- Writing several bytes keeps the canonical form and the bound on the indices. -/
theorem Memory.Ok.writeBytes {m : Memory} (h : Memory.Ok m) (start : Nat) (bs : List Byte)
    (hr : start + bs.length ≤ Config.bufBytes) : Memory.Ok (Memory.writeBytes m start bs) := by
  induction bs generalizing m start with
  | nil => exact h
  | cons b bs ih =>
    simp only [List.length_cons] at hr
    refine ih ⟨Memory.write_wf h.sorted _ _, ?_⟩ (start + 1) (by omega)
    intro c hc
    rcases Memory.mem_write hc with rfl | hc
    · simp only; omega
    · exact h.inRange c hc

theorem Memory.Ok.nil : Memory.Ok [] := ⟨List.Pairwise.nil, by simp⟩

/-- What reading several bytes answers: the bytes, each of them written. -/
theorem Memory.readBytes_eq_some {m : Memory} {start n : Nat} {bs : List Byte} :
    Memory.readBytes m start n = some bs ↔
      bs.length = n ∧ ∀ j, j < n → Memory.read m (start + j) = bs[j]? := by
  induction n generalizing start bs with
  | zero =>
    simp only [Memory.readBytes, Option.some.injEq, Nat.not_lt_zero, false_implies, implies_true, and_true]
    rw [List.length_eq_zero_iff, eq_comm]
  | succ n ih =>
    simp only [Memory.readBytes]
    constructor
    · intro h
      split at h
      · rename_i b rest h1 h2
        obtain rfl := Option.some.inj h
        obtain ⟨hl, hr⟩ := ih.mp h2
        refine ⟨by simp [hl], ?_⟩
        intro j hj
        cases j with
        | zero => simpa using h1
        | succ j =>
          have := hr j (by omega)
          rw [List.getElem?_cons_succ, ← this]
          congr 1; omega
      · cases h
    · rintro ⟨hl, hr⟩
      cases bs with
      | nil => simp at hl
      | cons b rest =>
        have h0 := hr 0 (by omega)
        simp only [Nat.add_zero, List.getElem?_cons_zero] at h0
        have h1 : Memory.readBytes m (start + 1) n = some rest := by
          refine ih.mpr ⟨by simpa using hl, ?_⟩
          intro j hj
          have := hr (j + 1) (by omega)
          rw [List.getElem?_cons_succ] at this
          rw [← this]; congr 1; omega
        simp [h0, h1]

/-- Reading several bytes answers exactly when each of them was written. -/
theorem Memory.readBytes_isSome {m : Memory} {start n : Nat} :
    (Memory.readBytes m start n).isSome = true ↔ ∀ j, j < n → (Memory.read m (start + j)).isSome = true := by
  induction n generalizing start with
  | zero => simp [Memory.readBytes]
  | succ n ih =>
    simp only [Memory.readBytes]
    constructor
    · intro h j hj
      split at h
      · rename_i b rest h1 h2
        cases j with
        | zero => simp [h1]
        | succ j =>
          have := ih.mp (by rw [h2]; rfl) j (by omega)
          rwa [show start + 1 + j = start + (j + 1) by omega] at this
      · cases h
    · intro h
      have h0 := h 0 (by omega)
      rw [Nat.add_zero] at h0
      obtain ⟨b, hb⟩ := Option.isSome_iff_exists.mp h0
      have h1 : (Memory.readBytes m (start + 1) n).isSome = true :=
        ih.mpr fun j hj => by
          have := h (j + 1) (by omega)
          rwa [show start + (j + 1) = start + 1 + j by omega] at this
      obtain ⟨rest, hrest⟩ := Option.isSome_iff_exists.mp h1
      simp [hb, hrest]

/-- The message is the IN bytes, and there is one exactly when each of them was written (R105, R302). -/
theorem CoreState.message_eq_some {c : CoreState} {m : List Byte} :
    c.message = some m ↔ m.length = nbytes c.bits ∧ ∀ j, j < nbytes c.bits → Memory.read c.inBuf j = m[j]? := by
  simp [CoreState.message, Memory.readBytes_eq_some]

theorem CoreState.message_isSome {c : CoreState} : c.message.isSome = true ↔ c.InputWritten := by
  simp [CoreState.message, Memory.readBytes_isSome, CoreState.InputWritten]

theorem CoreState.message_eq_none {c : CoreState} : c.message = none ↔ ¬ c.InputWritten := by
  rw [← CoreState.message_isSome]; simp

end Sys2Proof.Machine
end

