-- ==== Sys2Proof/Laws/State.lean ====
section
/-! SUPPORT. One lemma per field per update of the state records, true by `rfl` (for `State.written`, by its one case
split), so that no later proof unfolds a record update. -/

namespace Sys2Proof.Machine


/-! `CoreState.flagsIssued` -/

@[simp] theorem CoreState.flagsIssued_phase (c : CoreState) : c.flagsIssued.phase = c.phase := rfl
@[simp] theorem CoreState.flagsIssued_done (c : CoreState) : c.flagsIssued.done = false := rfl
@[simp] theorem CoreState.flagsIssued_err (c : CoreState) : c.flagsIssued.err = false := rfl
@[simp] theorem CoreState.flagsIssued_errCode (c : CoreState) : c.flagsIssued.errCode = 0#4 := rfl
@[simp] theorem CoreState.flagsIssued_keyv (c : CoreState) : c.flagsIssued.keyv = c.keyv := rfl
@[simp] theorem CoreState.flagsIssued_jobCmd (c : CoreState) : c.flagsIssued.jobCmd = c.jobCmd := rfl
@[simp] theorem CoreState.flagsIssued_key (c : CoreState) : c.flagsIssued.key = c.key := rfl
@[simp] theorem CoreState.flagsIssued_count (c : CoreState) : c.flagsIssued.count = c.count := rfl
@[simp] theorem CoreState.flagsIssued_bearer (c : CoreState) : c.flagsIssued.bearer = c.bearer := rfl
@[simp] theorem CoreState.flagsIssued_direction (c : CoreState) : c.flagsIssued.direction = c.direction := rfl
@[simp] theorem CoreState.flagsIssued_bitLen (c : CoreState) : c.flagsIssued.bitLen = c.bitLen := rfl
@[simp] theorem CoreState.flagsIssued_inLen (c : CoreState) : c.flagsIssued.inLen = c.inLen := rfl
@[simp] theorem CoreState.flagsIssued_tag (c : CoreState) : c.flagsIssued.tag = c.tag := rfl
@[simp] theorem CoreState.flagsIssued_inBuf (c : CoreState) : c.flagsIssued.inBuf = c.inBuf := rfl
@[simp] theorem CoreState.flagsIssued_outBuf (c : CoreState) : c.flagsIssued.outBuf = c.outBuf := rfl

/-! `CoreState.flagsDone` -/

@[simp] theorem CoreState.flagsDone_phase (c : CoreState) : c.flagsDone.phase = c.phase := rfl
@[simp] theorem CoreState.flagsDone_done (c : CoreState) : c.flagsDone.done = true := rfl
@[simp] theorem CoreState.flagsDone_err (c : CoreState) : c.flagsDone.err = c.err := rfl
@[simp] theorem CoreState.flagsDone_errCode (c : CoreState) : c.flagsDone.errCode = c.errCode := rfl
@[simp] theorem CoreState.flagsDone_keyv (c : CoreState) : c.flagsDone.keyv = c.keyv := rfl
@[simp] theorem CoreState.flagsDone_jobCmd (c : CoreState) : c.flagsDone.jobCmd = c.jobCmd := rfl
@[simp] theorem CoreState.flagsDone_key (c : CoreState) : c.flagsDone.key = c.key := rfl
@[simp] theorem CoreState.flagsDone_count (c : CoreState) : c.flagsDone.count = c.count := rfl
@[simp] theorem CoreState.flagsDone_bearer (c : CoreState) : c.flagsDone.bearer = c.bearer := rfl
@[simp] theorem CoreState.flagsDone_direction (c : CoreState) : c.flagsDone.direction = c.direction := rfl
@[simp] theorem CoreState.flagsDone_bitLen (c : CoreState) : c.flagsDone.bitLen = c.bitLen := rfl
@[simp] theorem CoreState.flagsDone_inLen (c : CoreState) : c.flagsDone.inLen = c.inLen := rfl
@[simp] theorem CoreState.flagsDone_tag (c : CoreState) : c.flagsDone.tag = c.tag := rfl
@[simp] theorem CoreState.flagsDone_inBuf (c : CoreState) : c.flagsDone.inBuf = c.inBuf := rfl
@[simp] theorem CoreState.flagsDone_outBuf (c : CoreState) : c.flagsDone.outBuf = c.outBuf := rfl

/-! `CoreState.flagsError` -/

@[simp] theorem CoreState.flagsError_phase (e : JobError) (c : CoreState) : (c.flagsError e).phase = c.phase := rfl
@[simp] theorem CoreState.flagsError_done (e : JobError) (c : CoreState) : (c.flagsError e).done = false := rfl
@[simp] theorem CoreState.flagsError_err (e : JobError) (c : CoreState) : (c.flagsError e).err = true := rfl
@[simp] theorem CoreState.flagsError_errCode (e : JobError) (c : CoreState) : (c.flagsError e).errCode = e.code := rfl
@[simp] theorem CoreState.flagsError_keyv (e : JobError) (c : CoreState) : (c.flagsError e).keyv = c.keyv := rfl
@[simp] theorem CoreState.flagsError_jobCmd (e : JobError) (c : CoreState) : (c.flagsError e).jobCmd = c.jobCmd := rfl
@[simp] theorem CoreState.flagsError_key (e : JobError) (c : CoreState) : (c.flagsError e).key = c.key := rfl
@[simp] theorem CoreState.flagsError_count (e : JobError) (c : CoreState) : (c.flagsError e).count = c.count := rfl
@[simp] theorem CoreState.flagsError_bearer (e : JobError) (c : CoreState) : (c.flagsError e).bearer = c.bearer := rfl
@[simp] theorem CoreState.flagsError_direction (e : JobError) (c : CoreState) : (c.flagsError e).direction = c.direction := rfl
@[simp] theorem CoreState.flagsError_bitLen (e : JobError) (c : CoreState) : (c.flagsError e).bitLen = c.bitLen := rfl
@[simp] theorem CoreState.flagsError_inLen (e : JobError) (c : CoreState) : (c.flagsError e).inLen = c.inLen := rfl
@[simp] theorem CoreState.flagsError_tag (e : JobError) (c : CoreState) : (c.flagsError e).tag = c.tag := rfl
@[simp] theorem CoreState.flagsError_inBuf (e : JobError) (c : CoreState) : (c.flagsError e).inBuf = c.inBuf := rfl
@[simp] theorem CoreState.flagsError_outBuf (e : JobError) (c : CoreState) : (c.flagsError e).outBuf = c.outBuf := rfl

/-! `CoreState.issue` -/

@[simp] theorem CoreState.issue_phase (w : Word) (c : CoreState) : (c.issue w).phase = .busy := rfl
@[simp] theorem CoreState.issue_done (w : Word) (c : CoreState) : (c.issue w).done = false := rfl
@[simp] theorem CoreState.issue_err (w : Word) (c : CoreState) : (c.issue w).err = false := rfl
@[simp] theorem CoreState.issue_errCode (w : Word) (c : CoreState) : (c.issue w).errCode = 0#4 := rfl
@[simp] theorem CoreState.issue_keyv (w : Word) (c : CoreState) : (c.issue w).keyv = c.keyv := rfl
@[simp] theorem CoreState.issue_jobCmd (w : Word) (c : CoreState) : (c.issue w).jobCmd = w := rfl
@[simp] theorem CoreState.issue_key (w : Word) (c : CoreState) : (c.issue w).key = c.key := rfl
@[simp] theorem CoreState.issue_count (w : Word) (c : CoreState) : (c.issue w).count = c.count := rfl
@[simp] theorem CoreState.issue_bearer (w : Word) (c : CoreState) : (c.issue w).bearer = c.bearer := rfl
@[simp] theorem CoreState.issue_direction (w : Word) (c : CoreState) : (c.issue w).direction = c.direction := rfl
@[simp] theorem CoreState.issue_bitLen (w : Word) (c : CoreState) : (c.issue w).bitLen = c.bitLen := rfl
@[simp] theorem CoreState.issue_inLen (w : Word) (c : CoreState) : (c.issue w).inLen = c.inLen := rfl
@[simp] theorem CoreState.issue_tag (w : Word) (c : CoreState) : (c.issue w).tag = c.tag := rfl
@[simp] theorem CoreState.issue_inBuf (w : Word) (c : CoreState) : (c.issue w).inBuf = c.inBuf := rfl
@[simp] theorem CoreState.issue_outBuf (w : Word) (c : CoreState) : (c.issue w).outBuf = c.outBuf := rfl

/-! `CoreState.raiseError` -/

@[simp] theorem CoreState.raiseError_phase (e : JobError) (c : CoreState) : (c.raiseError e).phase = .idle := rfl
@[simp] theorem CoreState.raiseError_done (e : JobError) (c : CoreState) : (c.raiseError e).done = false := rfl
@[simp] theorem CoreState.raiseError_err (e : JobError) (c : CoreState) : (c.raiseError e).err = true := rfl
@[simp] theorem CoreState.raiseError_errCode (e : JobError) (c : CoreState) : (c.raiseError e).errCode = e.code := rfl
@[simp] theorem CoreState.raiseError_keyv (e : JobError) (c : CoreState) : (c.raiseError e).keyv = c.keyv := rfl
@[simp] theorem CoreState.raiseError_jobCmd (e : JobError) (c : CoreState) : (c.raiseError e).jobCmd = c.jobCmd := rfl
@[simp] theorem CoreState.raiseError_key (e : JobError) (c : CoreState) : (c.raiseError e).key = c.key := rfl
@[simp] theorem CoreState.raiseError_count (e : JobError) (c : CoreState) : (c.raiseError e).count = c.count := rfl
@[simp] theorem CoreState.raiseError_bearer (e : JobError) (c : CoreState) : (c.raiseError e).bearer = c.bearer := rfl
@[simp] theorem CoreState.raiseError_direction (e : JobError) (c : CoreState) : (c.raiseError e).direction = c.direction := rfl
@[simp] theorem CoreState.raiseError_bitLen (e : JobError) (c : CoreState) : (c.raiseError e).bitLen = c.bitLen := rfl
@[simp] theorem CoreState.raiseError_inLen (e : JobError) (c : CoreState) : (c.raiseError e).inLen = c.inLen := rfl
@[simp] theorem CoreState.raiseError_tag (e : JobError) (c : CoreState) : (c.raiseError e).tag = c.tag := rfl
@[simp] theorem CoreState.raiseError_inBuf (e : JobError) (c : CoreState) : (c.raiseError e).inBuf = c.inBuf := rfl
@[simp] theorem CoreState.raiseError_outBuf (e : JobError) (c : CoreState) : (c.raiseError e).outBuf = c.outBuf := rfl

/-! `CoreState.complete` -/

@[simp] theorem CoreState.complete_phase (c : CoreState) : c.complete.phase = .idle := rfl
@[simp] theorem CoreState.complete_done (c : CoreState) : c.complete.done = true := rfl
@[simp] theorem CoreState.complete_err (c : CoreState) : c.complete.err = c.err := rfl
@[simp] theorem CoreState.complete_errCode (c : CoreState) : c.complete.errCode = c.errCode := rfl
@[simp] theorem CoreState.complete_keyv (c : CoreState) : c.complete.keyv = c.keyv := rfl
@[simp] theorem CoreState.complete_jobCmd (c : CoreState) : c.complete.jobCmd = c.jobCmd := rfl
@[simp] theorem CoreState.complete_key (c : CoreState) : c.complete.key = c.key := rfl
@[simp] theorem CoreState.complete_count (c : CoreState) : c.complete.count = c.count := rfl
@[simp] theorem CoreState.complete_bearer (c : CoreState) : c.complete.bearer = c.bearer := rfl
@[simp] theorem CoreState.complete_direction (c : CoreState) : c.complete.direction = c.direction := rfl
@[simp] theorem CoreState.complete_bitLen (c : CoreState) : c.complete.bitLen = c.bitLen := rfl
@[simp] theorem CoreState.complete_inLen (c : CoreState) : c.complete.inLen = c.inLen := rfl
@[simp] theorem CoreState.complete_tag (c : CoreState) : c.complete.tag = c.tag := rfl
@[simp] theorem CoreState.complete_inBuf (c : CoreState) : c.complete.inBuf = c.inBuf := rfl
@[simp] theorem CoreState.complete_outBuf (c : CoreState) : c.complete.outBuf = c.outBuf := rfl

/-! `CoreState.writeKey` -/

@[simp] theorem CoreState.writeKey_phase (n : Fin 4) (v : Word) (c : CoreState) : (c.writeKey n v).phase = c.phase := rfl
@[simp] theorem CoreState.writeKey_done (n : Fin 4) (v : Word) (c : CoreState) : (c.writeKey n v).done = c.done := rfl
@[simp] theorem CoreState.writeKey_err (n : Fin 4) (v : Word) (c : CoreState) : (c.writeKey n v).err = c.err := rfl
@[simp] theorem CoreState.writeKey_errCode (n : Fin 4) (v : Word) (c : CoreState) : (c.writeKey n v).errCode = c.errCode := rfl
@[simp] theorem CoreState.writeKey_keyv (n : Fin 4) (v : Word) (c : CoreState) : (c.writeKey n v).keyv = c.keyv ||| (1#4 <<< n.val) := rfl
@[simp] theorem CoreState.writeKey_jobCmd (n : Fin 4) (v : Word) (c : CoreState) : (c.writeKey n v).jobCmd = c.jobCmd := rfl
@[simp] theorem CoreState.writeKey_key (n : Fin 4) (v : Word) (c : CoreState) : (c.writeKey n v).key = keyInsert c.key n v := rfl
@[simp] theorem CoreState.writeKey_count (n : Fin 4) (v : Word) (c : CoreState) : (c.writeKey n v).count = c.count := rfl
@[simp] theorem CoreState.writeKey_bearer (n : Fin 4) (v : Word) (c : CoreState) : (c.writeKey n v).bearer = c.bearer := rfl
@[simp] theorem CoreState.writeKey_direction (n : Fin 4) (v : Word) (c : CoreState) : (c.writeKey n v).direction = c.direction := rfl
@[simp] theorem CoreState.writeKey_bitLen (n : Fin 4) (v : Word) (c : CoreState) : (c.writeKey n v).bitLen = c.bitLen := rfl
@[simp] theorem CoreState.writeKey_inLen (n : Fin 4) (v : Word) (c : CoreState) : (c.writeKey n v).inLen = c.inLen := rfl
@[simp] theorem CoreState.writeKey_tag (n : Fin 4) (v : Word) (c : CoreState) : (c.writeKey n v).tag = c.tag := rfl
@[simp] theorem CoreState.writeKey_inBuf (n : Fin 4) (v : Word) (c : CoreState) : (c.writeKey n v).inBuf = c.inBuf := rfl
@[simp] theorem CoreState.writeKey_outBuf (n : Fin 4) (v : Word) (c : CoreState) : (c.writeKey n v).outBuf = c.outBuf := rfl

/-! `CoreState.writeCtx` -/

@[simp] theorem CoreState.writeCtx_phase (v : Word) (c : CoreState) : (c.writeCtx v).phase = c.phase := rfl
@[simp] theorem CoreState.writeCtx_done (v : Word) (c : CoreState) : (c.writeCtx v).done = c.done := rfl
@[simp] theorem CoreState.writeCtx_err (v : Word) (c : CoreState) : (c.writeCtx v).err = c.err := rfl
@[simp] theorem CoreState.writeCtx_errCode (v : Word) (c : CoreState) : (c.writeCtx v).errCode = c.errCode := rfl
@[simp] theorem CoreState.writeCtx_keyv (v : Word) (c : CoreState) : (c.writeCtx v).keyv = c.keyv := rfl
@[simp] theorem CoreState.writeCtx_jobCmd (v : Word) (c : CoreState) : (c.writeCtx v).jobCmd = c.jobCmd := rfl
@[simp] theorem CoreState.writeCtx_key (v : Word) (c : CoreState) : (c.writeCtx v).key = c.key := rfl
@[simp] theorem CoreState.writeCtx_count (v : Word) (c : CoreState) : (c.writeCtx v).count = c.count := rfl
@[simp] theorem CoreState.writeCtx_bearer (v : Word) (c : CoreState) : (c.writeCtx v).bearer = v.extractLsb' 0 8 := rfl
@[simp] theorem CoreState.writeCtx_direction (v : Word) (c : CoreState) : (c.writeCtx v).direction = v.extractLsb' 8 1 := rfl
@[simp] theorem CoreState.writeCtx_bitLen (v : Word) (c : CoreState) : (c.writeCtx v).bitLen = c.bitLen := rfl
@[simp] theorem CoreState.writeCtx_inLen (v : Word) (c : CoreState) : (c.writeCtx v).inLen = c.inLen := rfl
@[simp] theorem CoreState.writeCtx_tag (v : Word) (c : CoreState) : (c.writeCtx v).tag = c.tag := rfl
@[simp] theorem CoreState.writeCtx_inBuf (v : Word) (c : CoreState) : (c.writeCtx v).inBuf = c.inBuf := rfl
@[simp] theorem CoreState.writeCtx_outBuf (v : Word) (c : CoreState) : (c.writeCtx v).outBuf = c.outBuf := rfl

/-! `CoreState.writeInWord` -/

@[simp] theorem CoreState.writeInWord_phase (j : Nat) (v : Word) (c : CoreState) : (c.writeInWord j v).phase = c.phase := rfl
@[simp] theorem CoreState.writeInWord_done (j : Nat) (v : Word) (c : CoreState) : (c.writeInWord j v).done = c.done := rfl
@[simp] theorem CoreState.writeInWord_err (j : Nat) (v : Word) (c : CoreState) : (c.writeInWord j v).err = c.err := rfl
@[simp] theorem CoreState.writeInWord_errCode (j : Nat) (v : Word) (c : CoreState) : (c.writeInWord j v).errCode = c.errCode := rfl
@[simp] theorem CoreState.writeInWord_keyv (j : Nat) (v : Word) (c : CoreState) : (c.writeInWord j v).keyv = c.keyv := rfl
@[simp] theorem CoreState.writeInWord_jobCmd (j : Nat) (v : Word) (c : CoreState) : (c.writeInWord j v).jobCmd = c.jobCmd := rfl
@[simp] theorem CoreState.writeInWord_key (j : Nat) (v : Word) (c : CoreState) : (c.writeInWord j v).key = c.key := rfl
@[simp] theorem CoreState.writeInWord_count (j : Nat) (v : Word) (c : CoreState) : (c.writeInWord j v).count = c.count := rfl
@[simp] theorem CoreState.writeInWord_bearer (j : Nat) (v : Word) (c : CoreState) : (c.writeInWord j v).bearer = c.bearer := rfl
@[simp] theorem CoreState.writeInWord_direction (j : Nat) (v : Word) (c : CoreState) : (c.writeInWord j v).direction = c.direction := rfl
@[simp] theorem CoreState.writeInWord_bitLen (j : Nat) (v : Word) (c : CoreState) : (c.writeInWord j v).bitLen = c.bitLen := rfl
@[simp] theorem CoreState.writeInWord_inLen (j : Nat) (v : Word) (c : CoreState) : (c.writeInWord j v).inLen = c.inLen := rfl
@[simp] theorem CoreState.writeInWord_tag (j : Nat) (v : Word) (c : CoreState) : (c.writeInWord j v).tag = c.tag := rfl
@[simp] theorem CoreState.writeInWord_inBuf (j : Nat) (v : Word) (c : CoreState) : (c.writeInWord j v).inBuf = Memory.writeBytes c.inBuf (4 * j) (wordBytes v) := rfl
@[simp] theorem CoreState.writeInWord_outBuf (j : Nat) (v : Word) (c : CoreState) : (c.writeInWord j v).outBuf = c.outBuf := rfl

/-! `CoreState.reset` -/

@[simp] theorem CoreState.reset_phase : CoreState.reset.phase = .idle := rfl
@[simp] theorem CoreState.reset_done : CoreState.reset.done = false := rfl
@[simp] theorem CoreState.reset_err : CoreState.reset.err = false := rfl
@[simp] theorem CoreState.reset_errCode : CoreState.reset.errCode = 0#4 := rfl
@[simp] theorem CoreState.reset_keyv : CoreState.reset.keyv = 0#4 := rfl
@[simp] theorem CoreState.reset_jobCmd : CoreState.reset.jobCmd = 0#32 := rfl
@[simp] theorem CoreState.reset_key : CoreState.reset.key = 0#128 := rfl
@[simp] theorem CoreState.reset_count : CoreState.reset.count = 0#32 := rfl
@[simp] theorem CoreState.reset_bearer : CoreState.reset.bearer = 0#8 := rfl
@[simp] theorem CoreState.reset_direction : CoreState.reset.direction = 0#1 := rfl
@[simp] theorem CoreState.reset_bitLen : CoreState.reset.bitLen = 0#32 := rfl
@[simp] theorem CoreState.reset_inLen : CoreState.reset.inLen = 0#32 := rfl
@[simp] theorem CoreState.reset_tag : CoreState.reset.tag = 0#32 := rfl
@[simp] theorem CoreState.reset_inBuf : CoreState.reset.inBuf = [] := rfl
@[simp] theorem CoreState.reset_outBuf : CoreState.reset.outBuf = [] := rfl

/-! `State.withCore` -/

@[simp] theorem State.withCore_core (c : CoreState) (s : State) : (s.withCore c).core = c := rfl
@[simp] theorem State.withCore_host (c : CoreState) (s : State) : (s.withCore c).host = s.host := rfl
@[simp] theorem State.withCore_schedule (c : CoreState) (s : State) : (s.withCore c).schedule = s.schedule := rfl
@[simp] theorem State.withCore_draws (c : CoreState) (s : State) : (s.withCore c).draws = s.draws := rfl
@[simp] theorem State.withCore_epoch (c : CoreState) (s : State) : (s.withCore c).epoch = s.epoch + 1 := rfl

/-! `State.drawn` -/

@[simp] theorem State.drawn_core (s : State) : s.drawn.core = s.core := rfl
@[simp] theorem State.drawn_host (s : State) : s.drawn.host = s.host := rfl
@[simp] theorem State.drawn_schedule (s : State) : s.drawn.schedule = s.schedule := rfl
@[simp] theorem State.drawn_draws (s : State) : s.drawn.draws = s.draws + 1 := rfl
@[simp] theorem State.drawn_epoch (s : State) : s.drawn.epoch = s.epoch := rfl

/-! `State.hostNext` -/

@[simp] theorem State.hostNext_core (s : State) : s.hostNext.core = s.core := rfl
@[simp] theorem State.hostNext_host (s : State) : s.hostNext.host = { s.host with next := s.host.next + 1 } := rfl
@[simp] theorem State.hostNext_schedule (s : State) : s.hostNext.schedule = s.schedule := rfl
@[simp] theorem State.hostNext_draws (s : State) : s.hostNext.draws = s.draws := rfl
@[simp] theorem State.hostNext_epoch (s : State) : s.hostNext.epoch = s.epoch := rfl

/-! `State.hostGoto` -/

@[simp] theorem State.hostGoto_core (n : Nat) (s : State) : (s.hostGoto n).core = s.core := rfl
@[simp] theorem State.hostGoto_host (n : Nat) (s : State) : (s.hostGoto n).host = { s.host with next := n } := rfl
@[simp] theorem State.hostGoto_schedule (n : Nat) (s : State) : (s.hostGoto n).schedule = s.schedule := rfl
@[simp] theorem State.hostGoto_draws (n : Nat) (s : State) : (s.hostGoto n).draws = s.draws := rfl
@[simp] theorem State.hostGoto_epoch (n : Nat) (s : State) : (s.hostGoto n).epoch = s.epoch := rfl

/-! `State.setReg` -/

@[simp] theorem State.setReg_core (r : HostReg) (v : Word) (s : State) : (s.setReg r v).core = s.core := rfl
@[simp] theorem State.setReg_host (r : HostReg) (v : Word) (s : State) : (s.setReg r v).host = { s.host with regs := s.host.regs.set r.val v r.isLt } := rfl
@[simp] theorem State.setReg_schedule (r : HostReg) (v : Word) (s : State) : (s.setReg r v).schedule = s.schedule := rfl
@[simp] theorem State.setReg_draws (r : HostReg) (v : Word) (s : State) : (s.setReg r v).draws = s.draws := rfl
@[simp] theorem State.setReg_epoch (r : HostReg) (v : Word) (s : State) : (s.setReg r v).epoch = s.epoch := rfl

/-! `State.turnTaken` -/

@[simp] theorem State.turnTaken_core (s : State) : s.turnTaken.core = s.core := rfl
@[simp] theorem State.turnTaken_host (s : State) : s.turnTaken.host = s.host := rfl
@[simp] theorem State.turnTaken_schedule (s : State) : s.turnTaken.schedule = s.schedule.tail := rfl
@[simp] theorem State.turnTaken_draws (s : State) : s.turnTaken.draws = s.draws := rfl
@[simp] theorem State.turnTaken_epoch (s : State) : s.turnTaken.epoch = s.epoch := rfl

/-! `State.withJob` -/

@[simp] theorem State.withJob_core (w : Word) (s : State) : (s.withJob w).core = s.core.issue w := rfl
@[simp] theorem State.withJob_host (w : Word) (s : State) : (s.withJob w).host = s.host := rfl
@[simp] theorem State.withJob_schedule (w : Word) (s : State) : (s.withJob w).schedule = .engine :: s.schedule := rfl
@[simp] theorem State.withJob_draws (w : Word) (s : State) : (s.withJob w).draws = s.draws := rfl
@[simp] theorem State.withJob_epoch (w : Word) (s : State) : (s.withJob w).epoch = s.epoch := rfl

/-! `State.written`: the case split on whether the write changed the core is done here, once. -/

@[simp] theorem State.written_self (s : State) : s.written s.core = s := if_pos rfl

theorem State.written_ne {c : CoreState} {s : State} (h : c ≠ s.core) : s.written c = s.withCore c := if_neg h

@[simp] theorem State.written_core (c : CoreState) (s : State) : (s.written c).core = c := by
  unfold State.written
  split
  · simp [*]
  · rfl

@[simp] theorem State.written_host (c : CoreState) (s : State) : (s.written c).host = s.host := by
  unfold State.written; split <;> rfl

@[simp] theorem State.written_schedule (c : CoreState) (s : State) : (s.written c).schedule = s.schedule := by
  unfold State.written; split <;> rfl

@[simp] theorem State.written_draws (c : CoreState) (s : State) : (s.written c).draws = s.draws := by
  unfold State.written; split <;> rfl

/-! `State.reset` -/

@[simp] theorem State.reset_core : State.reset.core = CoreState.reset := rfl
@[simp] theorem State.reset_host : State.reset.host = HostAgent.reset := rfl
@[simp] theorem State.reset_schedule : State.reset.schedule = [] := rfl
@[simp] theorem State.reset_draws : State.reset.draws = 0 := rfl
@[simp] theorem State.reset_epoch : State.reset.epoch = 0 := rfl

end Sys2Proof.Machine
end

