-- ==== Sys2Proof/Laws/Ops.lean ====
section
/-! SUPPORT. The laws of the shared operations: what the checks say, and the one inversion lemma of each engine. -/

namespace Sys2Proof.Machine

@[simp] theorem CoreState.busy_eq_true {c : CoreState} : c.busy = true ↔ c.phase = .busy := by simp [CoreState.busy]

@[simp] theorem CoreState.busy_eq_false {c : CoreState} : c.busy = false ↔ c.phase = .idle := by
  cases h : c.phase <;> simp [CoreState.busy, h]

/-- A field of a value as a number. -/
theorem extract_toNat {w : Nat} (x : BitVec w) (lo n : Nat) :
    (x.extractLsb' lo n).toNat = x.toNat / 2 ^ lo % 2 ^ n := by
  simp [BitVec.extractLsb'_toNat, Nat.shiftRight_eq_div_pow]

/-- The STATUS word as a number: each field at its place (R36). -/
theorem CoreState.statusWord_toNat (c : CoreState) : c.statusWord.toNat =
    c.keyv.toNat * 2 ^ 8 + c.errCode.toNat * 2 ^ 4 + c.err.toNat * 4 + c.done.toNat * 2 + c.busy.toNat := by
  have h : c.statusWord.toNat = (0#20 ++ c.keyv ++ c.errCode ++ 0#1 ++ BitVec.ofBool c.err ++ BitVec.ofBool c.done ++
    BitVec.ofBool c.busy).toNat := rfl
  rw [h]
  simp only [append_toNat, BitVec.toNat_ofNat, BitVec.toNat_ofBool]
  omega

/-- The CTX word as a number (R44). -/
theorem CoreState.ctxWord_toNat (c : CoreState) :
    c.ctxWord.toNat = c.direction.toNat * 2 ^ 8 + c.bearer.toNat := by
  have h : c.ctxWord.toNat = (0#23 ++ c.direction ++ c.bearer).toNat := rfl
  rw [h]
  simp only [append_toNat, BitVec.toNat_ofNat]
  omega

/-- KEY after a write of KEYn, as a number: the quarter is replaced (R56). -/
theorem keyInsert_toNat (k : Bits128) (n : Fin 4) (v : Word) : (keyInsert k n v).toNat =
    k.toNat / 2 ^ (128 - 32 * n.val) * 2 ^ (128 - 32 * n.val) + v.toNat * 2 ^ (96 - 32 * n.val) +
      k.toNat % 2 ^ (96 - 32 * n.val) := by
  have hk := k.isLt
  match n with
  | 0 =>
    have h : (keyInsert k 0 v).toNat = (v ++ k.extractLsb' 0 96).toNat := rfl
    rw [h]
    simp only [append_toNat, extract_toNat]
    show _ = k.toNat / 2 ^ 128 * 2 ^ 128 + v.toNat * 2 ^ 96 + k.toNat % 2 ^ 96
    omega
  | 1 =>
    have h : (keyInsert k 1 v).toNat = (k.extractLsb' 96 32 ++ v ++ k.extractLsb' 0 64).toNat := rfl
    rw [h]
    simp only [append_toNat, extract_toNat]
    show _ = k.toNat / 2 ^ 96 * 2 ^ 96 + v.toNat * 2 ^ 64 + k.toNat % 2 ^ 64
    omega
  | 2 =>
    have h : (keyInsert k 2 v).toNat = (k.extractLsb' 64 64 ++ v ++ k.extractLsb' 0 32).toNat := rfl
    rw [h]
    simp only [append_toNat, extract_toNat]
    show _ = k.toNat / 2 ^ 64 * 2 ^ 64 + v.toNat * 2 ^ 32 + k.toNat % 2 ^ 32
    omega
  | 3 =>
    have h : (keyInsert k 3 v).toNat = (k.extractLsb' 32 96 ++ v).toNat := rfl
    rw [h]
    simp only [append_toNat, extract_toNat]
    show _ = k.toNat / 2 ^ 32 * 2 ^ 32 + v.toNat * 2 ^ 0 + k.toNat % 2 ^ 0
    omega

/-- BUF_BYTES is one of the values R9 allows. -/
theorem Config.bufBytes_bounds :
    Config.bufBytes % 4 = 0 ∧ 16 ≤ Config.bufBytes ∧ Config.bufBytes ≤ 2 ^ 20 := by
  have := Config.bufSizeChoice.isLt
  simp only [Config.bufBytes]; omega

/-- R277: a legal command passes exactly when the four conditions hold. -/
theorem check_eq_none {i : Instr} {c : CoreState} : check (.instr i) c = none ↔ c.Checks := by
  simp only [check, CoreState.keyReady, decide_eq_true_eq]
  constructor
  · intro h
    split at h
    · cases h
    · split at h
      · cases h
      · split at h
        · cases h
        · split at h
          · cases h
          · exact ⟨by tauto, by omega, by omega, by omega⟩
  · rintro ⟨h1, h2, h3, h4⟩
    have h2' : ¬ c.bearer.toNat > 31 := by omega
    have h3' : ¬ c.bitLen.toNat > 8 * c.inLen.toNat := by omega
    have h4' : ¬ c.bitLen.toNat > Config.maxBitLen := by omega
    simp only [h1, not_true_eq_false, if_false, h2', h3', h4']

/-- The codes are 1 to 5 (R270). -/
theorem JobError.code_bounds (e : JobError) : e.code ≠ 0#4 ∧ e.code.toNat ≤ 5 := by cases e <;> decide

/-- Everything a completion step of a legal command can do when it answers a next state (R134): an error completion, or
`perform` with the completion's flags. -/
theorem runJob_eq_next {i : Instr} {perform : CoreState → Host.Outcome CoreState Fault Refusal} {s t : State} :
    runJob i perform s = .next t ↔
      (∃ e, check (.instr i) s.core = some e ∧ t = s.withCore (s.core.raiseError e)) ∨
      (check (.instr i) s.core = none ∧ ∃ c, perform s.core = .next c ∧ t = s.withCore c.complete) := by
  unfold runJob
  cases h : check (.instr i) s.core with
  | some e => simp [eq_comm]
  | none =>
    cases h2 : perform s.core <;> simp [eq_comm]

/-- Everything `perform CONF` can answer. -/
theorem performConf_eq_next {c c' : CoreState} :
    performConf c = .next c' ↔ ∃ m, c.message = some m ∧
      c' = { c with
        outBuf := Memory.writeBytes c.outBuf 0
          (confFn Config.blockCipher c.key c.count c.bearer5 c.direction m c.bits) } := by
  unfold performConf
  cases c.message <;> simp [eq_comm]

/-- Everything `perform INTEG` can answer. -/
theorem performInteg_eq_next {c c' : CoreState} :
    performInteg c = .next c' ↔ ∃ m t, c.message = some m ∧
      integFn Config.blockCipher c.key c.count c.bearer5 c.direction m c.bits = some t ∧ c' = { c with tag := t } := by
  unfold performInteg
  cases c.message with
  | none => simp
  | some m =>
    simp only [Option.some.injEq, exists_and_left, exists_eq_left']
    cases integFn Config.blockCipher c.key c.count c.bearer5 c.direction m c.bits <;> simp [eq_comm]

/-- A performing engine never refuses (U9). -/
theorem performInteg_ne_refused (c : CoreState) (r : Refusal) : performInteg c ≠ .refused r := by
  unfold performInteg
  cases c.message with
  | none => simp
  | some m =>
    obtain ⟨t, ht⟩ := Option.isSome_iff_exists.mp
      (integFn_isSome Config.blockCipher c.key c.count c.bearer5 c.direction m c.bits)
    simp [ht]

theorem performConf_ne_refused (c : CoreState) (r : Refusal) : performConf c ≠ .refused r := by
  unfold performConf
  cases c.message <;> simp

end Sys2Proof.Machine
end

