-- ==== Sys2Proof/Laws/Bus.lean ====
section
/-! SUPPORT. The laws of the host bus: no read changes the block, and everything a write can do. -/

namespace Sys2Proof.Machine

/-- A read changes nothing but the number of the next BUSY draw (R75, R133). -/
theorem busRead_state (off : Offset) (bytes : Nat) (s : State) :
    (busRead off bytes s).2 = s ∨ (busRead off bytes s).2 = s.drawn ∧ s.core.phase = .busy := by
  unfold busRead
  cases accessTarget off bytes with
  | none => exact .inl rfl
  | some r =>
    cases r <;> simp only [readRegion, true_or]
    all_goals
      split
      · rename_i h
        exact .inr ⟨rfl, CoreState.busy_eq_true.mp h⟩
      · exact .inl rfl

@[simp] theorem busRead_core (off : Offset) (bytes : Nat) (s : State) : (busRead off bytes s).2.core = s.core := by
  rcases busRead_state off bytes s with h | ⟨h, -⟩ <;> simp [h]

@[simp] theorem busRead_host (off : Offset) (bytes : Nat) (s : State) : (busRead off bytes s).2.host = s.host := by
  rcases busRead_state off bytes s with h | ⟨h, -⟩ <;> simp [h]

@[simp] theorem busRead_schedule (off : Offset) (bytes : Nat) (s : State) :
    (busRead off bytes s).2.schedule = s.schedule := by
  rcases busRead_state off bytes s with h | ⟨h, -⟩ <;> simp [h]

/-- The number of the next BUSY draw enters the reply to a read of TAG or OUT_BUF in phase BUSY only (R75, R133). -/
theorem busRead_drawn {off : Offset} {bytes : Nat} {s : State}
    (h : s.core.phase = .busy → accessTarget off bytes ≠ some .tag ∧ ∀ j, accessTarget off bytes ≠ some (.outBuf j)) :
    (busRead off bytes s.drawn).1 = (busRead off bytes s).1 := by
  unfold busRead
  cases ha : accessTarget off bytes with
  | none => rfl
  | some r =>
    cases hb : s.core.busy with
    | false => cases r <;> simp only [readRegion, State.drawn_core, hb] <;> rfl
    | true =>
      obtain ⟨ht, ho⟩ := h (CoreState.busy_eq_true.mp hb)
      cases r with
      | tag => exact absurd ha ht
      | outBuf j => exact absurd ha (ho j)
      | _ => rfl

/-- Everything a write can leave: the state as it was (a bus error, an ignored write, phase BUSY), or an accepted write
in phase IDLE of a mapped word (R132, R59). -/
theorem busWrite_state (off : Offset) (bytes : Nat) (v : Word) (s : State) :
    (busWrite off bytes v s).2 = s ∨
      ∃ r c, s.core.phase = .idle ∧ accessTarget off bytes = some r ∧ writeCore r v s.core = some c ∧
        (busWrite off bytes v s).2 = s.written c := by
  unfold busWrite
  cases h : accessTarget off bytes with
  | none => exact .inl rfl
  | some r =>
    simp only [writeRegion]
    split
    · exact .inl rfl
    · rename_i hb
      have hi : s.core.phase = .idle := CoreState.busy_eq_false.mp (Bool.not_eq_true _ ▸ hb)
      cases hw : writeCore r v s.core with
      | none => exact .inl rfl
      | some c => exact .inr ⟨r, c, hi, rfl, hw, rfl⟩

@[simp] theorem busWrite_host (off : Offset) (bytes : Nat) (v : Word) (s : State) :
    (busWrite off bytes v s).2.host = s.host := by
  rcases busWrite_state off bytes v s with h | ⟨_, _, _, _, _, h⟩ <;> simp [h]

@[simp] theorem busWrite_schedule (off : Offset) (bytes : Nat) (v : Word) (s : State) :
    (busWrite off bytes v s).2.schedule = s.schedule := by
  rcases busWrite_state off bytes v s with h | ⟨_, _, _, _, _, h⟩ <;> simp [h]

/-- A mapped IN_BUF word lies inside the buffer (R34, R57). -/
theorem accessTarget_inBuf {off : Offset} {bytes j : Nat} (h : accessTarget off bytes = some (.inBuf j)) :
    4 * j + 4 ≤ Config.bufBytes := by
  unfold accessTarget at h
  split at h
  · rename_i hc
    simp only [mapOffset] at h
    split at h
    · rename_i hb
      simp only [Option.some.injEq, Region.inBuf.injEq] at h
      omega
    · split at h
      · cases h
      · simp only [registerAt] at h
        repeat' split at h
        all_goals cases h
  · cases h

end Sys2Proof.Machine
end

