-- ==== Sys2Proof/Laws/Agents.lean ====
section
/-! SUPPORT. The laws of the agents: everything one turn, and so one step, can do to the block. -/

namespace Sys2Proof.Machine

/-- Everything a host read followed by `use` can answer. -/
theorem hostRead_eq_next {off : Offset} {bytes : Nat} {s t : State} {use : Word → State → Result} :
    hostRead off bytes s use = .next t ↔
      ∃ v, (busRead off bytes s).1 = .data v ∧ use v (busRead off bytes s).2 = .next t := by
  unfold hostRead
  cases h : busRead off bytes s with
  | mk r u => cases r <;> simp

/-- Everything a host write can answer. -/
theorem hostWrite_eq_next {off : Offset} {bytes : Nat} {v : Word} {s t : State} :
    hostWrite off bytes v s = .next t ↔
      (busWrite off bytes v s).1 = .accepted ∧ t = (busWrite off bytes v s).2.hostNext := by
  unfold hostWrite
  cases h : busWrite off bytes v s with
  | mk r u => cases r <;> simp [eq_comm]

/-- What one host write can do to the block: nothing, or one accepted write in phase IDLE. -/
theorem hostWrite_core {off : Offset} {bytes : Nat} {v : Word} {s t : State} (h : hostWrite off bytes v s = .next t) :
    t.core = s.core ∨ ∃ r c, s.core.phase = .idle ∧ accessTarget off bytes = some r ∧
      writeCore r v s.core = some c ∧ t.core = c := by
  obtain ⟨-, rfl⟩ := hostWrite_eq_next.mp h
  rcases busWrite_state off bytes v s with h | ⟨r, c, h1, h2, h3, h4⟩
  · left; simp [h]
  · right; exact ⟨r, c, h1, h2, h3, by simp [h4]⟩

/-- What the host's turn can do to the block: nothing, or the one write its next operation makes, accepted in phase
IDLE. -/
theorem hostTurn_core {s t : State} (h : hostTurn s = .next t) :
    t.core = s.core ∨ ∃ o off bytes v r c, s.host.program[s.host.next]? = some o ∧ hostWrites o = some (off, bytes) ∧
      s.core.phase = .idle ∧ accessTarget off bytes = some r ∧ writeCore r v s.core = some c ∧ t.core = c := by
  unfold hostTurn at h
  split at h
  · cases h; exact .inl rfl
  · rename_i o ho
    have key : ∀ {off bytes v}, hostWrites o = some (off, bytes) → hostWrite off bytes v s = .next t →
        t.core = s.core ∨ ∃ o off bytes v r c, s.host.program[s.host.next]? = some o ∧
          hostWrites o = some (off, bytes) ∧ s.core.phase = .idle ∧ accessTarget off bytes = some r ∧
          writeCore r v s.core = some c ∧ t.core = c :=
      fun {off bytes v} hw h => (hostWrite_core h).imp_right fun ⟨r, c, h⟩ => ⟨o, off, bytes, v, r, c, ho, hw, h⟩
    cases o with
    | wr off imm => exact key rfl h
    | wrh off src => exact key rfl h
    | rd dst off =>
      obtain ⟨v, -, h2⟩ := hostRead_eq_next.mp h
      cases h2; left; simp
    | and dst src imm => cases h; exact .inl rfl
    | bnz src target =>
      simp only [hostExec, hostBnz, Host.Outcome.next.injEq] at h
      subst h; left; split <;> rfl
    | expect off imm =>
      obtain ⟨v, -, h2⟩ := hostRead_eq_next.mp h
      split at h2
      · cases h2; left; simp
      · cases h2
    | readAt dst addr bytes =>
      simp only [hostExec, hostReadAt] at h
      split at h
      · cases h
      · obtain ⟨v, -, h2⟩ := hostRead_eq_next.mp h
        cases h2; left; simp
    | writeAt addr bytes v =>
      simp only [hostExec, hostWriteAt] at h
      split at h
      · cases h
      · rename_i off ha
        exact key (by simp [hostWrites, ha]) h

/-- What the engine's turn can do: pass in phase IDLE; else an error completion, or a CONF or an INTEG that passed its
checks (R134). -/
theorem engineTurn_core {s t : State} (h : engineTurn s = .next t) :
    (s.core.phase = .idle ∧ t = s) ∨
    (s.core.phase = .busy ∧ ∃ e, check (decode s.core.jobCmd) s.core = some e ∧
      t = s.withCore (s.core.raiseError e)) ∨
    (s.core.phase = .busy ∧ decode s.core.jobCmd = .instr .conf ∧ s.core.Checks ∧ ∃ c, performConf s.core = .next c ∧
      t = s.withCore c.complete) ∨
    (s.core.phase = .busy ∧ decode s.core.jobCmd = .instr .integ ∧ s.core.Checks ∧ ∃ c, performInteg s.core = .next c ∧
      t = s.withCore c.complete) := by
  unfold engineTurn at h
  cases hp : s.core.phase with
  | idle => rw [hp] at h; cases h; exact .inl ⟨rfl, rfl⟩
  | busy =>
    rw [hp] at h
    right
    cases hd : decode s.core.jobCmd with
    | illegal why =>
      simp only [hd, runIllegal] at h
      cases h
      exact .inl ⟨rfl, .illegalCommand, rfl, rfl⟩
    | instr i =>
      simp only [hd] at h
      cases i with
      | conf =>
        rcases runJob_eq_next.mp h with ⟨e, h1, h2⟩ | ⟨h1, h2⟩
        · exact .inl ⟨rfl, e, h1, h2⟩
        · exact .inr (.inl ⟨rfl, rfl, check_eq_none.mp h1, h2⟩)
      | integ =>
        rcases runJob_eq_next.mp h with ⟨e, h1, h2⟩ | ⟨h1, h2⟩
        · exact .inl ⟨rfl, e, h1, h2⟩
        · exact .inr (.inr ⟨rfl, rfl, check_eq_none.mp h1, h2⟩)

/-- A step is the turn of the agent whose turn it is. -/
theorem step_eq (s : State) : step s = takeTurn (nextTurn s) s.turnTaken := rfl

/-- A run whose first step answers a next state goes on from it. -/
theorem run_succ_next {s u : State} (k : Nat) (h : step s = .next u) :
    Sys2Proof.core.run (k + 1) s = Sys2Proof.core.run k u := by
  have h' : Sys2Proof.core.step s = .next u := h
  simp only [Host.Core.run, h']

/-- A run whose first step faults has faulted. -/
theorem run_succ_fault {s : State} {r : Fault} (k : Nat) (h : step s = .fault r) :
    Sys2Proof.core.run (k + 1) s = .fault r := by
  have h' : Sys2Proof.core.step s = .fault r := h
  simp only [Host.Core.run, h']

/-- A run whose first step is refused is refused. -/
theorem run_succ_refused {s : State} {r : Refusal} (k : Nat) (h : step s = .refused r) :
    Sys2Proof.core.run (k + 1) s = .refused r := by
  have h' : Sys2Proof.core.step s = .refused r := h
  simp only [Host.Core.run, h']

end Sys2Proof.Machine
end

