-- ==== Sys2Proof/Laws/PerInstr.lean ====
section
/-! SUPPORT. Statements about the instruction as syntax, one lemma per constructor. -/

namespace Sys2Proof.Laws

/-- The command word of a well-formed command has MBZ zero, a nonzero OP, and decodes to the command (R100 to R103). -/
def CommandWord.Statement (i : Instr) : Prop :=
  i.wf = true → cmdMbz (encode i) = 0#24 ∧ cmdOp (encode i) = opcode i ∧ decodeTableWord 32 (encode i).toNat = some i

theorem CommandWord.conf : CommandWord.Statement .conf := fun _ => by decide

theorem CommandWord.integ : CommandWord.Statement .integ := fun _ => by decide

end Sys2Proof.Laws
end

