-- ==== Sys2Proof/Tests/Aes.lean ====
section
/-! SUPPORT. AES-128 encryption as FIPS-197 defines it. PRESUMED: from general knowledge, not from the spec's source
(spec/00_scope.md R5, spec/93 G1); it stands here only so that the known-answer vectors of spec/95_test_vectors.md can
be run through `confFn` and `integFn`. The model itself takes the cipher as an opaque parameter. -/

namespace Sys2Proof.Tests

/-- The S-box, entry 0 first. -/
def sboxTable : BitVec 2048 :=
  (0x637c777bf26b6fc53001672bfed7ab76ca82c97dfa5947f0add4a2af9ca472c0#256 ++ 
    0xb7fd9326363ff7cc34a5e5f171d8311504c723c31896059a071280e2eb27b275#256 ++ 
    0x09832c1a1b6e5aa0523bd6b329e32f8453d100ed20fcb15b6acbbe394a4c58cf#256 ++ 
    0xd0efaafb434d338545f9027f503c9fa851a3408f929d38f5bcb6da2110fff3d2#256 ++ 
    0xcd0c13ec5f974417c4a77e3d645d197360814fdc222a908846eeb814de5e0bdb#256 ++ 
    0xe0323a0a4906245cc2d3ac629195e479e7c8376d8dd54ea96c56f4ea657aae08#256 ++ 
    0xba78252e1ca6b4c6e8dd741f4bbd8b8a703eb5664803f60e613557b986c11d9e#256 ++ 
    0xe1f8981169d98e949b1e87e9ce5528df8ca1890dbfe6426841992d0fb054bb16#256 : BitVec 2048)

/-- SubBytes on one byte. -/
def sbox (x : Nat) : Nat := (sboxTable.toNat >>> (8 * (255 - x))) % 256

/-- Multiplication by x in the AES field. -/
def xtime (b : Nat) : Nat := if b < 128 then 2 * b else (2 * b) ^^^ 0x11B

/-- MixColumns on one column. -/
def mixColumn (a b c d : Nat) : List Nat :=
  let t := a ^^^ b ^^^ c ^^^ d
  [a ^^^ t ^^^ xtime (a ^^^ b), b ^^^ t ^^^ xtime (b ^^^ c), c ^^^ t ^^^ xtime (c ^^^ d), d ^^^ t ^^^ xtime (d ^^^ a)]

/-- MixColumns on a state of four columns. -/
def mixColumns : List Nat → List Nat
  | a :: b :: c :: d :: rest => mixColumn a b c d ++ mixColumns rest
  | _ => []

/-- ShiftRows and SubBytes. -/
def subShift (s : List Nat) : List Nat :=
  [0, 5, 10, 15, 4, 9, 14, 3, 8, 13, 2, 7, 12, 1, 6, 11].map fun i => sbox (s.getD i 0)

/-- The next round key. -/
def nextKey (rcon : Nat) (k : List Nat) : List Nat :=
  let g (i : Nat) := k.getD i 0
  let w0 := [g 0 ^^^ sbox (g 13) ^^^ rcon, g 1 ^^^ sbox (g 14), g 2 ^^^ sbox (g 15), g 3 ^^^ sbox (g 12)]
  let w1 := List.zipWith (· ^^^ ·) w0 [g 4, g 5, g 6, g 7]
  let w2 := List.zipWith (· ^^^ ·) w1 [g 8, g 9, g 10, g 11]
  let w3 := List.zipWith (· ^^^ ·) w2 [g 12, g 13, g 14, g 15]
  w0 ++ w1 ++ w2 ++ w3

/-- The rounds from one state and round key on, one per round constant; the last one has no MixColumns. -/
def rounds (s k : List Nat) : List Nat → List Nat
  | [] => s
  | [r] => List.zipWith (· ^^^ ·) (subShift s) (nextKey r k)
  | r :: r' :: rs =>
    rounds (List.zipWith (· ^^^ ·) (mixColumns (subShift s)) (nextKey r k)) (nextKey r k) (r' :: rs)

/-- The 16 bytes of a block. -/
def bytesOf (b : Bits128) : List Nat := (List.range 16).map fun j => (b.toNat >>> (8 * (15 - j))) % 256

/-- AES-128 encryption of one block. -/
def aes128 (k b : Bits128) : Bits128 :=
  let key := bytesOf k
  let out := rounds (List.zipWith (· ^^^ ·) (bytesOf b) key) key [1, 2, 4, 8, 16, 32, 64, 128, 0x1B, 0x36]
  BitVec.ofNat 128 (out.foldl (fun acc x => 256 * acc + x) 0)

end Sys2Proof.Tests
end

