-- ==== Sys2Proof/Tests/Slice0.lean ====
section
/-! SUPPORT. Tests, each a named theorem: what is ill formed is refused; words decode as spec/30_encoding.md says; the
vectors of spec/95_test_vectors.md; and, for every obligation with hypotheses, a witness that meets them all. -/

namespace Sys2Proof.Tests
open Sys2Proof Sys2Proof.Machine

/-! ## Ill-formed terms are refused -/

theorem test_wf_branch_past_the_end : hostProgramWf [.bnz 0 2] = false := by decide
theorem test_wf_branch_to_the_end : hostProgramWf [.bnz 0 1] = true := by decide
theorem test_wf_label_twice : hostTextWf [.label "a", .poll, .label "a"] = false := by decide +kernel
theorem test_wf_label_missing : hostTextWf [.bnz 0 "a"] = false := by decide +kernel
theorem test_assemble_refuses_label_missing : assemble [.bnz 0 "a"] = none := by decide +kernel
theorem test_wf_field_too_wide : fieldWf 32 5 = false ∧ fieldWf 31 5 = true ∧ concatPairs? [(32, 5)] = none := by decide
theorem test_wf_padding : padWf 128 = false ∧ padWf 127 = true := by decide
theorem test_wf_commands : Instr.wf .conf = true ∧ Instr.wf .integ = true := by decide

/-! ## Decoding: words written out bit by bit from R100 and R101 -/

theorem test_decode_conf : decode 0b00000000000000000000000000000001#32 = .instr .conf := by decide
theorem test_decode_integ : decode 0b00000000000000000000000000000010#32 = .instr .integ := by decide
theorem test_decode_zero : decode 0x00000000#32 = .illegal (.reservedOp 0#8) := by decide
theorem test_decode_three : decode 0b00000000000000000000000000000011#32 = .illegal (.reservedOp 3#8) := by decide
theorem test_decode_mbz_low : decode 0b00000000000000000000000100000001#32 = .illegal .mbzNonzero := by decide
theorem test_decode_mbz_high : decode 0b10000000000000000000000000000010#32 = .illegal .mbzNonzero := by decide
theorem test_encode : encode .conf = 0x00000001#32 ∧ encode .integ = 0x00000002#32 := by decide
theorem test_decode_table : decodeTableWord 32 1 = some .conf ∧ decodeTableWord 32 2 = some .integ ∧
    decodeTableWord 32 0x101 = none := by decide
/-- R116. -/
theorem test_disassemble : disassemble 0x00000002#32 = "INTEG" ∧ disassemble 0x8000ABCD#32 = ".word 0x8000ABCD" := by
  decide +kernel

/-! ## Vectors (spec/95) -/

def kA : Bits128 := 0x5ead1f52e92ced3add9486d1b066c693#128
def kB : Bits128 := 0x941c08ca34df130ee7644ef803b90eda#128
def kC : Bits128 := 0xa24fd61d0b627b91f7451be11df4d40e#128

/-- The first `n` bytes of a block. -/
def bytes (n : Nat) (b : Bits128) : List Byte := (blockBytes b).take n

/-- Scenario 3 (S3), two blocks; and L = 9 of the table 2.4, whose don't-care input bits are ones. -/
theorem test_conf_known_answers :
    confFn aes128 kC 0x1C3#32 0#5 1#1
      (bytes 16 0x45e0003c4cce00003d014091ac144077#128 ++ bytes 4 0xac1456e2000000000000000000000000#128) 160 =
      bytes 16 0xee1cae4f34904f46515bc173562021c6#128 ++ bytes 4 0x4afe08fc000000000000000000000000#128 ∧
    confFn aes128 kC 0x1C3#32 0#5 1#1 [0xFF#8, 0xFF#8] 9 = [0x54#8, 0x00#8] := by decide +kernel

/-- Scenario 2 (S2), and the row "Extremes" of 2.4. -/
theorem test_conf_extremes :
    confFn aes128 kB 0#32 0#5 0#1 (bytes 8 0x10101010c76c51320000000000000000#128) 64 =
      bytes 8 0xad1d7e855d13fbd60000000000000000#128 ∧
    confFn aes128 kA 0xFFFFFFFF#32 31#5 1#1 (List.replicate 16 0#8) 128 =
      blockBytes 0x4839ea5d15ef533d13f390c7cea0d36f#128 := by decide +kernel

/-- Scenario 1 (S1), and L = 64 (a full last block, K1) and L = 65 (two blocks) of the table 2.5. -/
theorem test_integ_known_answers :
    integFn aes128 kA 0#32 0#5 0#1 [0x00#8, 0x10#8, 0x10#8, 0x10#8, 0x10#8] 40 = some 0xc76c5132#32 ∧
    integFn aes128 kA 0#32 0#5 0#1 (List.replicate 9 0xFF#8) 64 = some 0x9a009774#32 ∧
    integFn aes128 kA 0#32 0#5 0#1 (List.replicate 9 0xFF#8) 65 = some 0x3ba8b990#32 := by decide +kernel

/-- L = 0 under other parameters, and L = 1 with two messages that differ in don't-care bits (2.5). -/
theorem test_integ_short :
    integFn aes128 kA 0xFFFFFFFF#32 31#5 1#1 [] 0 = some 0x2fc49111#32 ∧
    integFn aes128 kA 0#32 0#5 0#1 [0x80#8] 1 = some 0x23af7c9a#32 ∧
    integFn aes128 kA 0#32 0#5 0#1 [0xFF#8] 1 = some 0x23af7c9a#32 := by decide +kernel

/-- The subkeys of K_B: 0x87 is applied for K1 and not for K2 (2.3). -/
theorem test_subkeys : subkeys aes128 kB =
    (0x7a1add2b34ff55c87424b0a42be40129#128, 0xf435ba5669feab90e849614857c80252#128) := by decide +kernel

/-- The table 2.1 (R231 to R236). -/
theorem test_bit_buffer :
    loadBit [0x40#8] 1 = true ∧ loadBit [0x40#8] 0 = false ∧ loadBits [0x12#8, 0x34#8] 4 8 = 0x23#8 ∧
    storeBits [0#8, 0#8] 4 0xAB#8 = [0x0A#8, 0xB0#8] ∧ storeBits [0xFF#8, 0xFF#8] 3 0#2 = [0xE7#8, 0xFF#8] ∧
    pack [0xFF#8, 0xFF#8] 9 = [0xFF#8, 0x80#8] ∧ pack [0xFF#8] 0 = [] ∧
    xorMasked [0xFF#8, 0x00#8, 0xFF#8] [0x0F#8, 0xF0#8, 0xF0#8] 20 = [0xF0#8, 0xF0#8, 0x00#8] ∧
    xorMasked [0xFF#8] [0xFF#8] 3 = [0x00#8] := by decide +kernel

/-- The table 2.1 (R237 to R239). -/
theorem test_block_primitives :
    concatPairs? [(0xFFFFFFFF, 32), (31, 5), (1, 1), (0, 26)] = some 0xFFFFFFFFFC000000 ∧
    shl1 0x80000000000000000000000000000001#128 = 2#128 ∧
    pad10star 0x0123456789ABCDEF#64 = some 0x0123456789ABCDEF8000000000000000#128 ∧
    pad10star 0#0 = some 0x80000000000000000000000000000000#128 ∧
    pad10star (BitVec.allOnes 127) = some (BitVec.allOnes 128) ∧ pad10star 0#128 = none := by decide +kernel

/-- Program P1: its expansion is the list of transactions written under it. -/
theorem test_program_expansion :
    assemble [.ldkey kA, .op (.wr 0x08#24 0#32), .setctx 0#32 0#32,
      .ldmsg [0x00#8, 0x10#8, 0x10#8, 0x10#8, 0x10#8], .op (.wr 0x10#24 40#32), .run .integ] =
    some [.wr 0x20#24 0x5EAD1F52#32, .wr 0x24#24 0xE92CED3A#32, .wr 0x28#24 0xDD9486D1#32, .wr 0x2C#24 0xB066C693#32,
      .wr 0x08#24 0#32, .wr 0x0C#24 0#32, .wr 0x100000#24 0x00101010#32, .wr 0x100004#24 0x10000000#32,
      .wr 0x14#24 5#32, .wr 0x10#24 0x28#32, .wr 0x00#24 2#32,
      .rd 7 0x04#24, .and 7 7 1#32, .bnz 7 11] := by decide +kernel

/-- The STATUS word a step leaves, if it answers a next state. -/
def statusAfter (s : State) : Option Word :=
  match step s with
  | .next t => some t.core.statusWord
  | .fault _ => none
  | .refused _ => none

/-- "just after reset, RUN": code 1 (2.6). -/
theorem test_conf_after_reset : statusAfter (State.reset.withFetchWord 32 1) = some 0x00000014#32 := by decide
theorem test_integ_after_reset : statusAfter (State.reset.withFetchWord 32 2) = some 0x00000014#32 := by decide

/-! ## States for the witnesses -/

/-- A job in flight: key loaded, bearer 31, the message in IN and INLEN its length. -/
def job (w bits : Word) (msg : List Byte) : State :=
  { State.reset with
    core := { CoreState.reset with
      phase := .busy, keyv := 0b1111#4, jobCmd := w, key := kC, count := 0x1C3#32, bearer := 31#8, direction := 1#1
      bitLen := bits, inLen := BitVec.ofNat 32 msg.length, inBuf := Memory.writeBytes [] 0 msg
      tag := 7#32, outBuf := [(0, 1#8), (3, 9#8)] } }

/-- A message of at most 128 bits fits every BUF_BYTES. -/
theorem job_checks {w bits : Word} {msg : List Byte} (h : bits.toNat ≤ 8 * (BitVec.ofNat 32 msg.length).toNat)
    (h' : bits.toNat ≤ 128) : (job w bits msg).core.Checks :=
  ⟨rfl, by show (31#8).toNat ≤ 31; decide, h, by
    have := Config.bufBytes_bounds
    show bits.toNat ≤ Config.maxBitLen
    simp only [Config.maxBitLen]; omega⟩

/-- BITLEN 0x00800001 is above MAX_BITLEN for every BUF_BYTES (2.6). -/
theorem too_long : (0x00800001#32).toNat > Config.maxBitLen := by
  have := Config.bufBytes_bounds
  have h : (0x00800001#32).toNat = 8388609 := by decide
  rw [h]; simp only [Config.maxBitLen]; omega

theorem checks_0 (w : Word) : (job w 0#32 []).core.Checks := job_checks (by decide) (by decide)
theorem checks_9 (w : Word) : (job w 9#32 [0xFF#8, 0xFF#8]).core.Checks := job_checks (by decide) (by decide)
theorem checks_128 (w : Word) : (job w 128#32 (List.replicate 16 0xA5#8)).core.Checks :=
  job_checks (by decide) (by decide)

theorem job_written {w bits : Word} {msg : List Byte}
    (h : (Memory.readBytes (Memory.writeBytes [] 0 msg) 0 (nbytes bits.toNat)).isSome = true) :
    (job w bits msg).core.InputWritten := CoreState.message_isSome.mp h
theorem written_0 (w : Word) : (job w 0#32 []).core.InputWritten := job_written (by decide)
theorem written_9 (w : Word) : (job w 9#32 [0xFF#8, 0xFF#8]).core.InputWritten := job_written (by decide)
theorem written_128 (w : Word) : (job w 128#32 (List.replicate 16 0xA5#8)).core.InputWritten :=
  job_written (by decide +kernel)

/-- A quiet BUSY state is as R42 says. -/
theorem statusOk_job (w bits : Word) (msg : List Byte) : (job w bits msg).core.StatusOk :=
  ⟨fun _ => ⟨rfl, rfl⟩, by simp [job, CoreState.reset], by simp [job, CoreState.reset], by
    show (0#4).toNat ≤ 5; decide⟩

/-- No job in flight: key loaded, one IN word written, the last job done; the host's program is `p`. -/
def idle (p : List HostOp) : State :=
  { job 1#32 8#32 [0xFF#8, 0xEE#8, 0xDD#8, 0xCC#8] with
    core := { (job 1#32 8#32 [0xFF#8, 0xEE#8, 0xDD#8, 0xCC#8]).core with phase := .idle, done := true }
    host := { HostAgent.reset with program := p } }

/-- What CONF answers where its checks pass over a written message. -/
theorem conf_next {s : State} (h : s.core.Checks) {m : List Byte} (hm : s.core.message = some m) :
    exec .conf s = .next (s.withCore (CoreState.complete { s.core with
      outBuf := Memory.writeBytes s.core.outBuf 0
        (confFn Config.blockCipher s.core.key s.core.count s.core.bearer5 s.core.direction m s.core.bits) })) := by
  show runJob .conf performConf s = _
  simp only [runJob, check_eq_none.mpr h, performConf, hm]

/-- What INTEG answers where its checks pass over a written message. -/
theorem integ_next {s : State} (h : s.core.Checks) {m : List Byte} (hm : s.core.message = some m) :
    ∃ tag, integFn Config.blockCipher s.core.key s.core.count s.core.bearer5 s.core.direction m s.core.bits = some tag ∧
      exec .integ s = .next (s.withCore (CoreState.complete { s.core with tag := tag })) := by
  obtain ⟨tag, ht⟩ := Option.isSome_iff_exists.mp
    (integFn_isSome Config.blockCipher s.core.key s.core.count s.core.bearer5 s.core.direction m s.core.bits)
  refine ⟨tag, ht, ?_⟩
  show runJob .integ performInteg s = _
  simp only [runJob, check_eq_none.mpr h, performInteg, hm, ht]

theorem message_0 (w : Word) : (job w 0#32 []).core.message = some [] := by
  show Memory.readBytes (Memory.writeBytes [] 0 []) 0 (nbytes (0#32).toNat) = _; decide
theorem message_9 (w : Word) : (job w 9#32 [0xFF#8, 0xFF#8]).core.message = some [0xFF#8, 0xFF#8] := by
  show Memory.readBytes (Memory.writeBytes [] 0 [0xFF#8, 0xFF#8]) 0 (nbytes (9#32).toNat) = _; decide

/-- R75: the second of two equal writes changes nothing, whatever was unwritten keeps its draw. -/
theorem test_repeated_write : let s := idle []
    (busWrite 0x000008#24 4 5#32 (busWrite 0x000008#24 4 5#32 s).2).2 = (busWrite 0x000008#24 4 5#32 s).2 ∧
    (busWrite 0x000008#24 4 0x1C3#32 s).2 = s := by decide

/-- R75: in phase BUSY a read of TAG in between leaves the draws of the unwritten IN bytes. -/
theorem test_busy_read_between : (busRead 0x000018#24 4 (job 1#32 8#32 [])).2.epoch = 0 ∧
    (busRead 0x000018#24 4 (job 1#32 8#32 [])).2.draws = 1 := by decide

/-! ## Witnesses -/

theorem witness_DecoderFollowsWordTable : ∀ w ∈ [1#32, 2#32, 0#32, 3#32, 0x101#32, 0x80000002#32],
    (job w 8#32 [0xFF#8]).core.phase = .busy ∧ (job w 8#32 [0xFF#8]).core.jobCmd = w := fun _ _ => ⟨rfl, rfl⟩

theorem witness_ReservedWordsEndWithIllegalCommand :
    (cmdOp 0#32 = 0#8) ∧ 3 ≤ (cmdOp 3#32).toNat ∧ 3 ≤ (cmdOp 0xFF#32).toNat ∧ cmdMbz 0x101#32 ≠ 0#24 ∧
    (idle []).core.phase = .idle ∧ ∀ w ∈ [0#32, 3#32, 0xFF#32, 0x101#32],
      (job w 8#32 []).core.phase = .busy ∧ (job w 8#32 []).core.jobCmd = w :=
  ⟨by decide, by decide, by decide, by decide, rfl, fun _ _ => ⟨rfl, rfl⟩⟩

theorem witness_StepRunsTheDecodedCommand :
    (nextTurn (job 1#32 0#32 []) = .engine ∧ (job 1#32 0#32 []).core.phase = .busy ∧
      decode (job 1#32 0#32 []).core.jobCmd = .instr .conf ∧ Instr.wf .conf = true) ∧
    (let s := { job 2#32 0#32 [] with schedule := [.engine, .host] }
     nextTurn s = .engine ∧ s.core.phase = .busy ∧ decode s.core.jobCmd = .instr .integ ∧ Instr.wf .integ = true) := by
  decide

theorem witness_ConfCompletes :
    ((job 1#32 0#32 []).core.Checks ∧ (job 1#32 0#32 []).core.InputWritten) ∧
    ((job 1#32 9#32 [0xFF#8, 0xFF#8]).core.Checks ∧ (job 1#32 9#32 [0xFF#8, 0xFF#8]).core.InputWritten) ∧
    ((job 1#32 128#32 (List.replicate 16 0xA5#8)).core.Checks ∧
      (job 1#32 128#32 (List.replicate 16 0xA5#8)).core.InputWritten) :=
  ⟨⟨checks_0 _, written_0 _⟩, ⟨checks_9 _, written_9 _⟩, checks_128 _, written_128 _⟩

theorem witness_IntegCompletes :
    ((job 2#32 0#32 []).core.Checks ∧ (job 2#32 0#32 []).core.InputWritten) ∧
    ((job 2#32 9#32 [0xFF#8, 0xFF#8]).core.Checks ∧ (job 2#32 9#32 [0xFF#8, 0xFF#8]).core.InputWritten) ∧
    ((job 2#32 128#32 (List.replicate 16 0xA5#8)).core.Checks ∧
      (job 2#32 128#32 (List.replicate 16 0xA5#8)).core.InputWritten) :=
  ⟨⟨checks_0 _, written_0 _⟩, ⟨checks_9 _, written_9 _⟩, checks_128 _, written_128 _⟩

/-- L = 9, INLEN 2, but only byte 0 was written. -/
theorem witness_UnwrittenInputFaultsTheJob :
    let s : State := { job 1#32 9#32 [0xFF#8, 0xFF#8] with
      core := { (job 1#32 9#32 [0xFF#8, 0xFF#8]).core with inBuf := [(0, 0xFF#8)] } }
    s.core.Checks ∧ ¬ s.core.InputWritten :=
  ⟨⟨(checks_9 1#32).1, (checks_9 1#32).2, (checks_9 1#32).3, (checks_9 1#32).4⟩, fun h => by
    have := h 1 (by show 1 < nbytes (9#32).toNat; decide)
    exact absurd this (by show ¬ (Memory.read [(0, 0xFF#8)] 1).isSome = true; decide)⟩

/-- MAX_BITLEN and MAX_BITLEN + 1 are values of BITLEN. -/
theorem maxBitLen_values : (BitVec.ofNat 32 Config.maxBitLen).toNat = Config.maxBitLen ∧
    (BitVec.ofNat 32 (Config.maxBitLen + 1)).toNat = Config.maxBitLen + 1 := by
  have := Config.bufBytes_bounds
  simp only [BitVec.toNat_ofNat, Config.maxBitLen]
  omega

/-- One state for each clause: an illegal word; KEYV 0b0111; bearer 32, 31; BITLEN 9, 8 with INLEN 1; BITLEN 0x00800001
with INLEN 0xFFFFFFFF; a job that passes; and BITLEN at MAX_BITLEN and at MAX_BITLEN + 1. -/
theorem witness_FirstFailingCheckIsReported :
    let c := (job 2#32 8#32 [0xFF#8]).core
    c.phase = .busy ∧ decode c.jobCmd = .instr .integ ∧ decode 3#32 = .illegal (.reservedOp 3#8) ∧
    (0b0111#4 ≠ 0b1111#4) ∧
    (c.keyv = 0b1111#4 ∧ (32#8).toNat > 31) ∧
    (c.keyv = 0b1111#4 ∧ c.bearer.toNat ≤ 31 ∧ (9#32).toNat > 8 * c.inLen.toNat) ∧
    (c.keyv = 0b1111#4 ∧ c.bearer.toNat ≤ 31 ∧ (0x00800001#32).toNat ≤ 8 * (0xFFFFFFFF#32).toNat ∧
      (0x00800001#32).toNat > Config.maxBitLen) ∧
    (c.keyv = 0b1111#4 ∧ c.bearer.toNat ≤ 31 ∧ c.bitLen.toNat ≤ 8 * c.inLen.toNat ∧
      c.bitLen.toNat ≤ Config.maxBitLen) ∧
    ((BitVec.ofNat 32 Config.maxBitLen).toNat ≤ 8 * (0xFFFFFFFF#32).toNat ∧
      (BitVec.ofNat 32 Config.maxBitLen).toNat ≤ Config.maxBitLen) ∧
    ((BitVec.ofNat 32 (Config.maxBitLen + 1)).toNat ≤ 8 * (0xFFFFFFFF#32).toNat ∧
      (BitVec.ofNat 32 (Config.maxBitLen + 1)).toNat > Config.maxBitLen) := by
  have hc : (job 2#32 8#32 [0xFF#8]).core.Checks := job_checks (by decide) (by decide)
  obtain ⟨h0, h1⟩ := maxBitLen_values
  have h8 : (0xFFFFFFFF#32).toNat = 0xFFFFFFFF := by decide
  have := Config.bufBytes_bounds
  have hm : Config.maxBitLen = 8 * Config.bufBytes := rfl
  rw [h0, h1, h8]
  exact ⟨rfl, by decide, by decide, by decide, by decide, by decide, ⟨rfl, by decide, by decide, too_long⟩,
    ⟨hc.1, hc.2, hc.3, hc.4⟩, ⟨by omega, by omega⟩, by omega, by omega⟩

/-- A job that ends with an error, and one that ends with DONE. -/
theorem witness_JobEndsInOneOfTwoWays :
    (∃ t, (State.reset.withFetchWord 32 1).core.phase = .busy ∧ (State.reset.withFetchWord 32 1).core.StatusOk ∧
      engineTurn (State.reset.withFetchWord 32 1) = .next t ∧ t.core.err = true) ∧
    ∃ t, (job 1#32 0#32 []).core.phase = .busy ∧ (job 1#32 0#32 []).core.StatusOk ∧
      engineTurn (job 1#32 0#32 []) = .next t ∧ t.core.done = true :=
  ⟨⟨_, rfl, ⟨fun _ => ⟨rfl, rfl⟩, by decide, by decide, by decide⟩, rfl, rfl⟩,
    _, rfl, statusOk_job .., conf_next (checks_0 1#32) (message_0 _), rfl⟩

theorem witness_PassingJobNeverFails :
    (job 2#32 9#32 [0xFF#8, 0xFF#8]).core.phase = .busy ∧
    decode (job 2#32 9#32 [0xFF#8, 0xFF#8]).core.jobCmd = .instr .integ ∧
    (job 2#32 9#32 [0xFF#8, 0xFF#8]).core.Checks ∧ (job 2#32 9#32 [0xFF#8, 0xFF#8]).core.InputWritten :=
  ⟨rfl, by decide, checks_9 _, written_9 _⟩

/-- L = 9: bytes 2 and 3 lie beyond the output; and a job that fails. -/
theorem witness_ConfFrame :
    (∃ t, exec .conf (job 1#32 9#32 [0xFF#8, 0xFF#8]) = .next t ∧ t.core.done = true ∧
      nbytes (job 1#32 9#32 [0xFF#8, 0xFF#8]).core.bits ≤ 2) ∧
    ∃ t, exec .conf (State.reset.withFetchWord 32 1) = .next t ∧ t.core.done = false :=
  ⟨⟨_, conf_next (checks_9 1#32) (message_9 _), rfl, by decide⟩, _, rfl, rfl⟩

theorem witness_ConfOutputBytes :
    ((job 1#32 9#32 [0xFF#8, 0xFF#8]).core.Checks ∧ (job 1#32 9#32 [0xFF#8, 0xFF#8]).core.InputWritten ∧
      nbytes (job 1#32 9#32 [0xFF#8, 0xFF#8]).core.bits ≤ 2 ∧ 1 < nbytes (job 1#32 9#32 [0xFF#8, 0xFF#8]).core.bits) ∧
    ((job 1#32 0#32 []).core.Checks ∧ (job 1#32 0#32 []).core.InputWritten ∧ (job 1#32 0#32 []).core.bits = 0) :=
  ⟨⟨checks_9 _, written_9 _, by decide, by decide⟩, checks_0 _, written_0 _, by decide⟩

theorem witness_ConfXorsBitForBit :
    nbytes 129 ≤ (List.replicate 17 0xFF#8).length ∧ 0 < 129 ∧ 127 < 129 ∧ 128 < 129 := by decide

theorem witness_ConfZeroTail : nbytes 9 ≤ [0xFF#8, 0xFF#8].length ∧ 9 % 8 ≠ 0 ∧ 6 < 8 - 9 % 8 ∧ nbytes 0 ≤ ([] : List Byte).length := by
  decide

/-- The two messages differ in don't-care bits. -/
theorem witness_ConfIgnoresDontCareBits :
    nbytes 1 ≤ [0x80#8].length ∧ nbytes 1 ≤ [0xFF#8].length ∧ (∀ p, p < 1 → loadBit [0x80#8] p = loadBit [0xFF#8] p) ∧
    [0x80#8] ≠ [0xFF#8] := by decide

/-- One message with a don't-care bit set, and one without. -/
theorem witness_ConfIsAnInvolution :
    7 ≤ Config.maxBitLen ∧ [0xFF#8].length = nbytes 7 ∧ [0xFE#8].length = nbytes 7 ∧ ([] : List Byte).length = nbytes 0 ∧
    7 < 8 * nbytes 7 ∧ loadBit [0xFF#8] 7 = true ∧ ∀ p, 7 ≤ p → p < 8 * nbytes 7 → loadBit [0xFE#8] p = false := by
  refine ⟨?_, by decide, by decide, by decide, by decide, by decide, ?_⟩
  · have := Config.bufBytes_bounds; simp only [Config.maxBitLen]; omega
  · intro p h h'
    have h8 : 8 * nbytes 7 = 8 := by decide
    obtain rfl : p = 7 := by omega
    decide

/-- Two ciphers that agree on the key kA and differ on another. -/
theorem witness_OnlyTheKeyEntersTheCipher :
    let E' (k x : Bits128) : Bits128 := if k = kA then x ^^^ k else x
    (∀ x, (fun k x : Bits128 => x ^^^ k) kA x = E' kA x) ∧ (fun k x : Bits128 => x ^^^ k) kB 0#128 ≠ E' kB 0#128 :=
  ⟨fun _ => by simp, by decide⟩

theorem witness_AuthenticationInputBits : 0 < 64 + 9 ∧ 63 < 64 + 9 ∧ 64 < 64 + 9 ∧ 72 < 64 + 9 ∧ 63 < 64 + 0 := by decide

theorem witness_BlockSplit :
    blockCount 64 = 1 ∧ blockCount 65 = 2 ∧ 0 < blockCount 65 - 1 ∧ 1 < blockCount 193 - 1 ∧ lastWidth 65 = 1 := by decide

theorem witness_LastBlockRule : (1 ≤ 1 ∧ 1 ≤ 128 ∧ 1 < 128) ∧ (1 ≤ 127 ∧ 127 < 128) ∧ (1 ≤ 128 ∧ 128 ≤ 128) := by decide

theorem witness_TagFromTheChain : (64 + 64) % 128 = 0 ∧ (64 + 0) % 128 ≠ 0 ∧ (64 + 65) % 128 ≠ 0 := by decide

theorem witness_TagDependsOnMessageBitsOnly :
    (∀ p, p < 1 → loadBit [0x80#8] p = loadBit [0xFF#8] p) ∧ ∀ p, p < 0 → loadBit [] p = loadBit [0xFF#8] p := by decide

/-- A tag computed, and a job that fails. -/
theorem witness_IntegFrame :
    (∃ t, exec .integ (job 2#32 9#32 [0xFF#8, 0xFF#8]) = .next t ∧ t.core.done = true) ∧
    ∃ t, exec .integ (State.reset.withFetchWord 32 2) = .next t ∧ t.core.done = false := by
  obtain ⟨_, _, h⟩ := integ_next (checks_9 2#32) (message_9 _)
  exact ⟨⟨_, h, rfl⟩, _, rfl, rfl⟩

/-- Two states that differ in TAG, OUT, the IN bytes beyond the message, the schedule and the draw counters. -/
theorem witness_JobsAreDeterministic : ∀ w ∈ [1#32, 2#32],
    let s := job w 9#32 [0xFF#8, 0xFF#8]
    let s' : State := { s with
      core := { s.core with inBuf := [(0, 0xFF#8), (1, 0xFF#8), (2, 0x11#8)], outBuf := [], tag := 9#32 }
      schedule := [.host], draws := 5, epoch := 6 }
    s.core.phase = .busy ∧ s'.core.phase = .busy ∧ s.core.StatusOk ∧ s'.core.StatusOk ∧ s'.core.jobCmd = s.core.jobCmd ∧
    s'.core.key = s.core.key ∧ s'.core.keyv = s.core.keyv ∧ s'.core.count = s.core.count ∧
    s'.core.bearer = s.core.bearer ∧ s'.core.direction = s.core.direction ∧ s'.core.bitLen = s.core.bitLen ∧
    s'.core.inLen = s.core.inLen ∧
    (∀ j, j < nbytes s.core.bits → Memory.read s'.core.inBuf j = Memory.read s.core.inBuf j) ∧
    ∃ t, engineTurn s = .next t ∧ t.core.done = true := by
  intro w hw
  have hOk := statusOk_job w 9#32 [0xFF#8, 0xFF#8]
  refine ⟨rfl, rfl, hOk, ⟨hOk.1, hOk.2, hOk.3, hOk.4⟩, rfl, rfl, rfl, rfl, rfl, rfl, rfl, rfl, ?_, ?_⟩
  · show ∀ j, j < nbytes (9#32).toNat → Memory.read [(0, 0xFF#8), (1, 0xFF#8), (2, 0x11#8)] j =
      Memory.read (Memory.writeBytes [] 0 [0xFF#8, 0xFF#8]) j
    decide
  · simp only [List.mem_cons, List.not_mem_nil, or_false] at hw
    rcases hw with rfl | rfl
    · exact ⟨_, conf_next (checks_9 1#32) (message_9 _), rfl⟩
    · obtain ⟨_, _, h⟩ := integ_next (checks_9 2#32) (message_9 _)
      exact ⟨_, h, rfl⟩

theorem witness_LoadBitsIsTheSumOfItsBits :
    4 + 12 ≤ 8 * [0x12#8, 0x34#8].length ∧ 16 + 0 ≤ 8 * [0x12#8, 0x34#8].length := by decide

/-- Bits 4 to 11 of two bytes: a bit before, a bit within and a bit beyond; and no bit at all. -/
theorem witness_StoredBitsLoadBack :
    4 + 8 ≤ 8 * [0x12#8, 0x34#8].length ∧ 0 < 8 ∧ 7 < 8 ∧ (3 < 16 ∧ 3 < 4) ∧ (12 < 16 ∧ 4 + 8 ≤ 12) ∧
    16 + 0 ≤ 8 * [0x12#8, 0x34#8].length := by decide

theorem witness_TailMaskTable : 0 < 1 ∧ 0 < nbytes 9 - 1 ∧ 1 + 1 = nbytes 9 ∧ 0 + 1 = nbytes 8 := by decide

theorem witness_PackKeepsTheFirstBits :
    nbytes 9 ≤ [0xFF#8, 0xFF#8].length ∧ 1 < nbytes 9 ∧ [0xFF#8, 0xFF#8][1]? = some 0xFF#8 ∧ 15 < 8 * nbytes 9 := by decide

theorem witness_MaskedXorRule :
    nbytes 9 ≤ [0xFF#8, 0xFF#8].length ∧ nbytes 9 ≤ [0x0F#8, 0xF0#8].length ∧ 1 < nbytes 9 ∧
    [0xFF#8, 0xFF#8][1]? = some 0xFF#8 ∧ [0x0F#8, 0xF0#8][1]? = some 0xF0#8 := by decide

theorem witness_FieldConcatenation : (∀ p ∈ [(31, 5), (0, 0)], p.1 < 2 ^ p.2) ∧ ¬ ∀ p ∈ [(32, 5)], p.1 < 2 ^ p.2 := by
  decide

theorem witness_PaddingRule : 0 ≤ 127 ∧ 127 ≤ 127 ∧ 0 < 128 ∧ 127 < 128 := by decide

theorem witness_CommandIssue : (idle []).core.phase = .idle := rfl

theorem accessTarget_cmd : accessTarget 0x000000#24 4 = some .cmd := rfl
theorem accessTarget_hole : accessTarget 0x00001C#24 4 = none := rfl
theorem accessTarget_beyond : accessTarget 0x300000#24 4 = none := by
  have := Config.bufBytes_bounds
  have h : (0x300000#24).toNat = 0x300000 := by decide
  unfold accessTarget
  rw [if_pos ⟨rfl, by decide⟩]
  simp only [mapOffset, h]
  rw [if_neg (by omega), if_neg (by omega)]
  rfl

theorem witness_WritesWhileBusyAreIgnored :
    (job 1#32 8#32 [0xFF#8]).core.phase = .busy ∧ accessTarget 0x000000#24 4 = some .cmd ∧
    accessTarget 0x000008#24 4 = some .count ∧ accessTarget 0x00001C#24 4 = none ∧ accessTarget 0x000008#24 2 = none :=
  ⟨rfl, rfl, rfl, rfl, rfl⟩

/-- The first IN_BUF word, and the last. -/
theorem buffer_words : 4 * 0 + 3 < Config.bufBytes ∧ 4 * (Config.bufBytes / 4 - 1) + 3 < Config.bufBytes := by
  have := Config.bufBytes_bounds; omega

theorem witness_ReadsWhileBusy :
    let s := job 1#32 8#32 [0xFF#8, 0xEE#8, 0xDD#8, 0xCC#8]
    s.core.phase = .busy ∧ s.core.StatusOk ∧ 4 * 0 + 3 < Config.bufBytes ∧
    Memory.read s.core.inBuf (4 * 0) = some 0xFF#8 ∧ Memory.read s.core.inBuf (4 * 0 + 1) = some 0xEE#8 ∧
    Memory.read s.core.inBuf (4 * 0 + 2) = some 0xDD#8 ∧ Memory.read s.core.inBuf (4 * 0 + 3) = some 0xCC#8 :=
  ⟨rfl, statusOk_job .., buffer_words.1, by decide, by decide, by decide, by decide⟩

theorem witness_ReadsHaveNoSideEffect :
    (idle []).core.phase = .idle ∧ 0x000004#24 ≠ 0x000000#24 ∧ (job 1#32 8#32 []).core.phase = .busy ∧
    accessTarget 0x000014#24 4 ≠ some .tag ∧ (∀ j, accessTarget 0x000014#24 4 ≠ some (.outBuf j)) := by
  have h : accessTarget 0x000014#24 4 = some .inLen := rfl
  rw [h]
  exact ⟨rfl, by decide, rfl, nofun, nofun⟩

theorem witness_BadWidthOrAlignmentIsABusError :
    (2 ≠ 4) ∧ (0x000006#24).toNat % 4 ≠ 0 ∧ (0x000003#24).toNat % 4 ≠ 0 := by decide

/-- The hole 0x1C; the first and last reserved offsets below IN_BUF; the first offset past OUT_BUF and the last of the
window; the first offset past each buffer, which exists if BUF_BYTES is below 2^20; an address at BASE. -/
theorem witness_AddressMap :
    (0x00001C#24).toNat % 4 = 0 ∧ (0x00001C#24).toNat = 0x00001C ∧
    ((0x000030#24).toNat % 4 = 0 ∧ 0x000030 ≤ (0x000030#24).toNat ∧ (0x000030#24).toNat ≤ 0x0FFFFF) ∧
    ((0x0FFFFC#24).toNat % 4 = 0 ∧ 0x000030 ≤ (0x0FFFFC#24).toNat ∧ (0x0FFFFC#24).toNat ≤ 0x0FFFFF) ∧
    ((0x300000#24).toNat % 4 = 0 ∧ 0x300000 ≤ (0x300000#24).toNat) ∧
    ((0xFFFFFC#24).toNat % 4 = 0 ∧ 0x300000 ≤ (0xFFFFFC#24).toNat) ∧
    (Config.bufBytes < 2 ^ 20 →
      (∃ off : Offset, off.toNat % 4 = 0 ∧ ∃ j, off.toNat = 0x100000 + 4 * j ∧ off.toNat ≤ 0x1FFFFF ∧
        Config.bufBytes ≤ 4 * j + 3) ∧
      ∃ off : Offset, off.toNat % 4 = 0 ∧ ∃ j, off.toNat = 0x200000 + 4 * j ∧ off.toNat ≤ 0x2FFFFF ∧
        Config.bufBytes ≤ 4 * j + 3) ∧
    (4 * 0 + 3 < Config.bufBytes ∧ 4 * (Config.bufBytes / 4 - 1) + 3 < Config.bufBytes) ∧
    ∃ addr off, offsetOf addr = some off := by
  refine ⟨by decide, by decide, by decide, by decide, by decide, by decide, fun h => ⟨?_, ?_⟩, buffer_words, ?_⟩
  · have hb := Config.bufBytes_bounds
    have hn : (BitVec.ofNat 24 (0x100000 + Config.bufBytes)).toNat = 0x100000 + Config.bufBytes := by
      rw [BitVec.toNat_ofNat]; omega
    exact ⟨BitVec.ofNat 24 (0x100000 + Config.bufBytes), by omega, Config.bufBytes / 4, by omega, by omega, by omega⟩
  · have hb := Config.bufBytes_bounds
    have hn : (BitVec.ofNat 24 (0x200000 + Config.bufBytes)).toNat = 0x200000 + Config.bufBytes := by
      rw [BitVec.toNat_ofNat]; omega
    exact ⟨BitVec.ofNat 24 (0x200000 + Config.bufBytes), by omega, Config.bufBytes / 4, by omega, by omega, by omega⟩
  · exact ⟨Config.base, _, if_pos ⟨Nat.le_refl _, by omega⟩⟩

theorem witness_BusErrorFaultsTheHost :
    accessTarget 0x00001C#24 4 = none ∧ accessTarget 0x000006#24 4 = none ∧ accessTarget 0x300000#24 4 = none ∧
    accessTarget 0x000008#24 2 = none ∧ accessTarget 0x000008#24 8 = none :=
  ⟨rfl, rfl, accessTarget_beyond, rfl, rfl⟩

theorem witness_KeyWrites :
    (job 1#32 8#32 []).core.phase = .busy ∧ (idle []).core.phase = .idle ∧ 0 < 96 - 32 * 0 ∧ 128 - 32 * 3 ≤ 127 := by decide

theorem witness_InputWindow :
    (4 * 0 + 3 < Config.bufBytes ∧ 4 * (Config.bufBytes / 4 - 1) + 3 < Config.bufBytes) ∧
    (job 1#32 8#32 []).core.phase = .busy ∧ (idle []).core.phase = .idle ∧ 4 * 0 + 3 < 4 ∧
    Memory.read (idle []).core.inBuf (4 * 0) = some 0xFF#8 ∧ Memory.read (idle []).core.inBuf (4 * 0 + 1) = some 0xEE#8 ∧
    Memory.read (idle []).core.inBuf (4 * 0 + 2) = some 0xDD#8 ∧ Memory.read (idle []).core.inBuf (4 * 0 + 3) = some 0xCC#8 :=
  ⟨buffer_words, rfl, rfl, by decide, by decide, by decide, by decide, by decide⟩

/-- OUT bytes 0 and 3 are written, bytes 1 and 2 of the same word are not; a wholly written word is below. -/
theorem witness_OutputWindow :
    (4 * 0 + 3 < Config.bufBytes ∧ 4 * (Config.bufBytes / 4 - 1) + 3 < Config.bufBytes) ∧ (idle []).core.phase = .idle ∧
    Memory.read (idle []).core.outBuf (4 * 0) = some 1#8 ∧ Memory.read (idle []).core.outBuf (4 * 0 + 3) = some 9#8 ∧
    (let c := { (idle []).core with outBuf := [(0, 1#8), (1, 2#8), (2, 3#8), (3, 4#8)] }
     c.phase = .idle ∧ Memory.read c.outBuf (4 * 0 + 1) = some 2#8 ∧ Memory.read c.outBuf (4 * 0 + 2) = some 3#8) :=
  ⟨buffer_words, rfl, by decide, by decide, by decide⟩

theorem witness_ReadOnlyAndWriteOnlyState :
    4 * 0 + 3 < Config.bufBytes ∧ (0x1FF#32).extractLsb' 0 9 = (0xFFFFFFFF#32).extractLsb' 0 9 :=
  ⟨buffer_words.1, by decide⟩

theorem witness_ReadWriteRegisters :
    (idle []).core.phase = .idle ∧ (job 1#32 8#32 []).core.phase = .busy ∧ 4 * 0 + 3 < Config.bufBytes ∧
    0x00000C#24 ∈ [0x000008#24, 0x00000C#24, 0x000010#24, 0x000014#24, 0x000020#24, 0x000024#24, 0x000028#24,
      0x00002C#24, 0x000000#24] :=
  ⟨rfl, rfl, buffer_words.1, by decide⟩

theorem witness_StatusLayout : (job 1#32 8#32 []).core.StatusOk := statusOk_job ..

/-- The host reads KEY0, whose value is specified; IN_BUF word 0 wholly written; TAG in phase IDLE; and a host that has
nothing to do. -/
theorem witness_KeyCannotBeRead :
    (hostReads (.rd 0 0x20#24) = some (0x20#24, 4) ∧ accessTarget 0x20#24 4 = some (.key 0) ∧
      Region.unspecified (.key 0) (idle [.rd 0 0x20#24]) = false ∧
      ∃ t, hostTurn (idle [.rd 0 0x20#24]) = .next t ∧ t.reg 0 = 0#32) ∧
    Region.unspecified (.inBuf 0) (idle []) = false ∧ Region.unspecified .tag (idle []) = false ∧
    hostTurn State.reset = .next State.reset :=
  ⟨⟨rfl, rfl, rfl, _, rfl, rfl⟩, by decide, by decide, rfl⟩

theorem witness_HostOperations :
    accessTarget 0x000008#24 4 ≠ none ∧ (busRead 0x000008#24 4 (idle [])).1 = .data 0x1C3#32 ∧ 0x1C3#32 ≠ 0#32 ∧
    (1 : HostReg) ≠ 0 ∧ Config.base + 2 ^ 24 ≤ Config.base + 2 ^ 24 := by
  refine ⟨?_, rfl, by decide, by decide, Nat.le_refl _⟩
  have : accessTarget 0x000008#24 4 = some .count := rfl
  simp [this]

theorem witness_PseudoInstructionExpansions :
    1 < ([1#8, 2#8, 3#8, 4#8, 5#8].length + 3) / 4 ∧ 3#32 ≠ 0x00000001#32 ∧ 3#32 ≠ 0x00000002#32 := by decide

/-- A loop: the label stands before POLL, and the branch to it after. -/
theorem witness_LabelsNameTheNextOperation :
    let ls : List HostLine := [.setctx 0#32 0#32, .label "a", .poll, .bnz 0 "a"]
    assemble ls = some [.wr 0x0C#24 0#32, .rd 7 0x04#24, .and 7 7 1#32, .bnz 7 1, .bnz 0 1] ∧
    ls = [.setctx 0#32 0#32, .label "a", .poll] ++ .bnz 0 "a" :: [] := by decide +kernel

theorem witness_ResetState : nextTurn { job 1#32 8#32 [0xFF#8] with schedule := [.reset] } = .reset := rfl

/-- The state with a job in flight right after reset meets the invariant. -/
theorem fetched_inv : (State.reset.withFetchWord 32 1).Inv :=
  ⟨⟨fun _ => ⟨rfl, rfl⟩, by decide, by decide, by decide⟩, Memory.Ok.nil, Memory.Ok.nil, by
    show ∀ n : Fin 4, (0#4).getLsbD n.val = false → (0#128).extractLsb' (96 - 32 * n.val) 32 = 0#32
    decide⟩

theorem witness_StepKeepsTheInvariant :
    (State.reset.withFetchWord 32 1).Inv ∧ ∃ t, step (State.reset.withFetchWord 32 1) = .next t ∧ t.core.err = true :=
  ⟨fetched_inv, _, rfl, rfl⟩

/-- After one step ERR is 1; before it BUSY is. -/
theorem witness_StatusInvariantsAlongRuns :
    (State.reset.withFetchWord 32 1).Inv ∧
    (∃ t, Sys2Proof.core.run 1 (State.reset.withFetchWord 32 1) = .next t ∧ t.core.statusWord.getLsbD 2 = true) ∧
    ∃ t, Sys2Proof.core.run 0 (State.reset.withFetchWord 32 1) = .next t ∧ t.core.statusWord.getLsbD 0 = true ∧
      t.core.statusWord.getLsbD 2 = false :=
  ⟨fetched_inv, ⟨_, rfl, by decide⟩, _, rfl, by decide, by decide⟩

/-- The host writes KEY0 right after reset; and a write when the bit is set already. -/
theorem witness_OnlyResetClearsKeyValid :
    (let s : State := { State.reset with host := { HostAgent.reset with program := [.wr 0x20#24 5#32] } }
     ∃ t, step s = .next t ∧ nextTurn s ≠ .reset ∧ t.core.keyv ≠ s.core.keyv ∧
      t.core.keyv.getLsbD 0 ≠ s.core.keyv.getLsbD 0) ∧
    ∃ t, step (idle [.wr 0x20#24 5#32]) = .next t ∧ nextTurn (idle [.wr 0x20#24 5#32]) ≠ .reset ∧
      (idle [.wr 0x20#24 5#32]).core.keyv.getLsbD 3 = true :=
  ⟨⟨_, rfl, by decide, by decide, by decide⟩, _, rfl, by decide, by decide⟩

/-- Right after reset but for the core `c`, a step with a job in flight. -/
theorem step_core {c : CoreState} {w : Word} {i : Instr} (hp : c.phase = .busy) (hw : c.jobCmd = w)
    (hd : decode w = .instr i) : step { State.reset with core := c } = exec i { State.reset with core := c } := by
  subst hw
  simp [step, takeTurn, nextTurn, State.reset, CoreState.busy, hp, State.turnTaken, engineTurn, hd]

theorem writeBytes_ne_nil {bs : List Byte} (h : bs.length ≠ 0) : Memory.writeBytes [] 0 bs ≠ [] := by
  intro hn
  have hr := congrArg (fun m => Memory.read m 0) hn
  simp only [Memory.read_writeBytes, Memory.read_nil] at hr
  match bs, h with
  | b :: bs, _ => simp at hr

/-- INTEG where TAG held another value. -/
theorem integ_changes_tag {c : CoreState} {m : List Byte} {tag : Word} (hp : c.phase = .busy) (hw : c.jobCmd = 2#32)
    (hc : c.Checks) (hm : c.message = some m)
    (ht : integFn Config.blockCipher c.key c.count c.bearer5 c.direction m c.bits = some tag) (hn : tag ≠ c.tag) :
    ∃ t, step { State.reset with core := c } = .next t ∧ t.core.tag ≠ c.tag := by
  obtain ⟨tag', ht', h⟩ := integ_next (s := { State.reset with core := c }) hc hm
  obtain rfl : tag' = tag := Option.some.inj (ht'.symm.trans ht)
  exact ⟨_, (step_core hp hw test_decode_integ).trans h, hn⟩

/-- CONF where OUT is unwritten. -/
theorem conf_changes_out {c : CoreState} {m : List Byte} (hp : c.phase = .busy) (hw : c.jobCmd = 1#32) (hc : c.Checks)
    (hm : c.message = some m) (hl : nbytes c.bits ≤ m.length) (h0 : nbytes c.bits ≠ 0) (ho : c.outBuf = []) :
    ∃ t, step { State.reset with core := c } = .next t ∧ t.core.outBuf ≠ c.outBuf := by
  refine ⟨_, (step_core hp hw test_decode_conf).trans (conf_next (s := { State.reset with core := c }) hc hm), ?_⟩
  show Memory.writeBytes c.outBuf 0 _ ≠ c.outBuf
  rw [ho]
  apply writeBytes_ne_nil
  rw [confFn_length _ _ _ _ _ hl]
  exact h0

theorem witness_OnlyTheEnginesWriteResults :
    (∃ s t : State, step s = .next t ∧ nextTurn s ≠ .reset ∧ t.core.tag ≠ s.core.tag) ∧
    ∃ s t : State, step s = .next t ∧ nextTurn s ≠ .reset ∧ t.core.outBuf ≠ s.core.outBuf := by
  constructor
  · obtain ⟨tag, ht, -⟩ := integ_next (checks_0 2#32) (message_0 2#32)
    obtain ⟨t, h, h'⟩ := integ_changes_tag (c := { (job 2#32 0#32 []).core with tag := ~~~tag }) rfl rfl
      ⟨(checks_0 2#32).1, (checks_0 2#32).2, (checks_0 2#32).3, (checks_0 2#32).4⟩ (message_0 2#32) ht (by
        intro hn
        have := congrArg (BitVec.getLsbD · 0) hn
        simp at this)
    exact ⟨_, t, h, (nofun : Turn.engine ≠ .reset), h'⟩
  · obtain ⟨t, h, h'⟩ := conf_changes_out (c := { (job 1#32 9#32 [0xFF#8, 0xFF#8]).core with outBuf := [] }) rfl rfl
      ⟨(checks_9 1#32).1, (checks_9 1#32).2, (checks_9 1#32).3, (checks_9 1#32).4⟩ (message_9 1#32)
      (show nbytes (9#32).toNat ≤ 2 by decide) (show nbytes (9#32).toNat ≠ 0 by decide) rfl
    exact ⟨_, t, h, (nofun : Turn.engine ≠ .reset), h'⟩

theorem witness_JobInputsAreFrozen :
    (let s := { job 1#32 9#32 [0xFF#8, 0xFF#8] with schedule := [.host] }
     s.core.phase = .busy ∧ nextTurn s ≠ .reset ∧ nextTurn s = .host ∧ ∃ t, step s = .next t) ∧
    (job 1#32 0#32 []).core.phase = .busy ∧ nextTurn (job 1#32 0#32 []) ≠ .reset ∧
    ∃ t, step (job 1#32 0#32 []) = .next t :=
  ⟨⟨rfl, by decide, rfl, _, rfl⟩, rfl, by decide, _, conf_next (checks_0 1#32) (message_0 _)⟩

/-- Two turns of a host with nothing left to do stand before the engine's. -/
theorem witness_EveryJobCompletes :
    let s := { job 1#32 0#32 [] with schedule := [.host, .host] }
    s.core.phase = .busy ∧ hostTurn s = .next s ∧ s.host.program.length ≤ s.host.next ∧ s.core.InputWritten :=
  ⟨rfl, rfl, by decide, written_0 _⟩

end Sys2Proof.Tests
end

section
/-! PROOFS. Rules of the registers' words: what a written key quarter, its KEYV bit, the CTX word and the STATUS word
read as, bit by bit or field by field. -/

namespace Sys2Proof.Machine

/-- R56: the bits of quarter `n` are those of the written word, every other bit of KEY is kept. -/
theorem keyInsert_getLsbD (k : Bits128) (n : Fin 4) (v : Word) (i : Nat) : (keyInsert k n v).getLsbD i =
    if 96 - 32 * n.val ≤ i ∧ i < 128 - 32 * n.val then v.getLsbD (i - (96 - 32 * n.val)) else k.getLsbD i := by
  have beyond : 128 ≤ i → k.getLsbD i = false := BitVec.getLsbD_of_ge k i
  match n with
  | 0 | 1 | 2 | 3 =>
    simp only [keyInsert, BitVec.getLsbD_append, BitVec.getLsbD_extractLsb']
    grind

theorem keyInsert_quarter_same (k : Bits128) (n : Fin 4) (v : Word) :
    (keyInsert k n v).extractLsb' (96 - 32 * n.val) 32 = v := by
  ext i hi
  have inside : 96 - 32 * n.val ≤ 96 - 32 * n.val + i ∧ 96 - 32 * n.val + i < 128 - 32 * n.val := by omega
  rw [BitVec.getElem_extractLsb', keyInsert_getLsbD, if_pos inside, Nat.add_sub_cancel_left, BitVec.getLsbD_eq_getElem]

theorem keyInsert_quarter_other (k : Bits128) {n m : Fin 4} (v : Word) (h : m ≠ n) :
    (keyInsert k n v).extractLsb' (96 - 32 * m.val) 32 = k.extractLsb' (96 - 32 * m.val) 32 := by
  ext i hi
  have outside : ¬ (96 - 32 * n.val ≤ 96 - 32 * m.val + i ∧ 96 - 32 * m.val + i < 128 - 32 * n.val) := by omega
  rw [BitVec.getElem_extractLsb', BitVec.getElem_extractLsb', keyInsert_getLsbD, if_neg outside]

/-- R56: KEY[127:120] is KEY0[31:24]. -/
theorem keyInsert_highByte (k : Bits128) (v : Word) :
    (keyInsert k 0 v).extractLsb' 120 8 = v.extractLsb' 24 8 := by
  apply BitVec.eq_of_toNat_eq
  rw [extract_toNat, extract_toNat, keyInsert_toNat, Fin.val_zero]
  omega

/-- R56: a write of KEYn sets KEYV bit `n` and keeps the others. -/
theorem keyvSet_getLsbD (kv : BitVec 4) (n : Fin 4) {i : Nat} (hi : i < 4) :
    (kv ||| (1#4 <<< n.val)).getLsbD i = (decide (i = n.val) || kv.getLsbD i) := by
  rw [BitVec.getLsbD_or, Bool.or_comm, BitVec.getLsbD_shiftLeft, BitVec.getLsbD_one]
  grind

/-- R44, R60: a CTX write stores the nine low bits of the word, and they read back. -/
theorem CoreState.writeCtx_ctxWord (v : Word) (c : CoreState) :
    (c.writeCtx v).ctxWord = (v.extractLsb' 0 9).setWidth 32 := by
  apply BitVec.eq_of_toNat_eq
  simp only [CoreState.ctxWord_toNat, CoreState.writeCtx_bearer, CoreState.writeCtx_direction, extract_toNat,
    BitVec.toNat_setWidth]
  omega

/-- R59: bits 31:9 of the word written to CTX do not enter. -/
theorem CoreState.writeCtx_congr {v v' : Word} (h : v.extractLsb' 0 9 = v'.extractLsb' 0 9) (c : CoreState) :
    c.writeCtx v = c.writeCtx v' := by
  have low : ∀ i, i < 9 → v.getLsbD i = v'.getLsbD i := fun i hi => by
    simpa [hi] using congrArg (BitVec.getLsbD · i) h
  have hb : v.extractLsb' 0 8 = v'.extractLsb' 0 8 := by
    ext i hi; simpa using low i (by omega)
  have hd : v.extractLsb' 8 1 = v'.extractLsb' 8 1 := by
    ext i hi; simpa using low (8 + i) (by omega)
  simp only [CoreState.writeCtx, hb, hd]

theorem CoreState.ctxWord_reserved (c : CoreState) : c.ctxWord.extractLsb' 9 23 = 0#23 := by
  apply BitVec.eq_of_toNat_eq
  rw [extract_toNat, CoreState.ctxWord_toNat, BitVec.toNat_ofNat]
  omega

/-- R36: the low four bits of STATUS are BUSY, DONE, ERR and a reserved 0. -/
theorem CoreState.statusWord_flags (c : CoreState) :
    c.statusWord.getLsbD 0 = c.busy ∧ c.statusWord.getLsbD 1 = c.done ∧ c.statusWord.getLsbD 2 = c.err ∧
      c.statusWord.getLsbD 3 = false := by
  simp only [CoreState.statusWord, BitVec.getLsbD_append]
  simp

theorem CoreState.flags_lt (c : CoreState) : c.err.toNat * 4 + c.done.toNat * 2 + c.busy.toNat < 8 := by
  have he := c.err.toNat_lt
  have hd := c.done.toNat_lt
  have hb := c.busy.toNat_lt
  omega

theorem CoreState.statusWord_errCode (c : CoreState) : c.statusWord.extractLsb' 4 4 = c.errCode := by
  apply BitVec.eq_of_toNat_eq
  have hf := c.flags_lt
  have hc := c.errCode.isLt
  rw [extract_toNat, CoreState.statusWord_toNat]
  omega

theorem CoreState.statusWord_reserved (c : CoreState) : c.statusWord.extractLsb' 12 20 = 0#20 := by
  apply BitVec.eq_of_toNat_eq
  have hf := c.flags_lt
  have hc := c.errCode.isLt
  have hk := c.keyv.isLt
  rw [extract_toNat, CoreState.statusWord_toNat, BitVec.toNat_ofNat]
  omega

end Sys2Proof.Machine
end

section
/-! PROOFS. The bus by the word it reaches: where each offset goes, and what an access does there. -/

namespace Sys2Proof.Machine

/-- R34: KEYn stands at 0x20 + 4n. -/
theorem accessTarget_keyOffset (n : Fin 4) : accessTarget (BitVec.ofNat 24 (0x20 + 4 * n.val)) 4 = some (.key n) := by
  match n with
  | 0 | 1 | 2 | 3 => rfl

theorem accessTarget_aligned {off : Offset} (h : off.toNat % 4 = 0) : accessTarget off 4 = mapOffset off :=
  if_pos ⟨rfl, h⟩

/-- R34: IN_BUF word `j` stands at 0x100000 + 4j. -/
theorem accessTarget_inWord {j : Nat} (h : 4 * j + 3 < Config.bufBytes) :
    accessTarget (BitVec.ofNat 24 (0x100000 + 4 * j)) 4 = some (.inBuf j) := by
  obtain ⟨-, -, bound⟩ := Config.bufBytes_bounds
  have off : (BitVec.ofNat 24 (0x100000 + 4 * j)).toNat = 0x100000 + 4 * j := by rw [BitVec.toNat_ofNat]; omega
  have word : (0x100000 + 4 * j - 0x100000) / 4 = j := by omega
  rw [accessTarget_aligned (by omega)]
  simp only [mapOffset, off, word]
  rw [if_pos (by omega)]

/-- R34: OUT_BUF word `j` stands at 0x200000 + 4j, outside the IN_BUF window. -/
theorem accessTarget_outWord {j : Nat} (h : 4 * j + 3 < Config.bufBytes) :
    accessTarget (BitVec.ofNat 24 (0x200000 + 4 * j)) 4 = some (.outBuf j) := by
  obtain ⟨-, -, bound⟩ := Config.bufBytes_bounds
  have off : (BitVec.ofNat 24 (0x200000 + 4 * j)).toNat = 0x200000 + 4 * j := by rw [BitVec.toNat_ofNat]; omega
  have word : (0x200000 + 4 * j - 0x200000) / 4 = j := by omega
  rw [accessTarget_aligned (by omega)]
  simp only [mapOffset, off, word]
  rw [if_neg (by omega), if_pos (by omega)]

section
variable {off : Offset} {bytes : Nat} {r : Region}

theorem busRead_of_target (h : accessTarget off bytes = some r) (s : State) :
    busRead off bytes s = readRegion r s := by
  simp only [busRead, h]

theorem busWrite_of_target (h : accessTarget off bytes = some r) (v : Word) (s : State) :
    busWrite off bytes v s = (.accepted, writeRegion r v s) := by
  simp only [busWrite, h]

/-- R132: a write of a mapped word in phase BUSY is ignored. -/
theorem busWrite_busy (h : accessTarget off bytes = some r) {s : State} (hb : s.core.phase = .busy) (v : Word) :
    busWrite off bytes v s = (.accepted, s) := by
  rw [busWrite_of_target h, writeRegion, if_pos (CoreState.busy_eq_true.mpr hb)]

/-- R59: a write that no word takes is ignored, in either phase. -/
theorem busWrite_ignored (h : accessTarget off bytes = some r) {v : Word} {s : State}
    (hw : writeCore r v s.core = none) : busWrite off bytes v s = (.accepted, s) := by
  rw [busWrite_of_target h, writeRegion, hw, ite_self]

theorem busWrite_idle (h : accessTarget off bytes = some r) {v : Word} {s : State} {c : CoreState}
    (hw : writeCore r v s.core = some c) (hi : s.core.phase = .idle) :
    busWrite off bytes v s = (.accepted, s.written c) := by
  have hb : ¬ s.core.busy = true := by simp [hi]
  rw [busWrite_of_target h, writeRegion, if_neg hb, hw]

/-- A write accepted in phase IDLE: the block becomes `c`, the host and the schedule stay. -/
theorem busWrite_stores (h : accessTarget off bytes = some r) {v : Word} {s : State} {c : CoreState}
    (hw : writeCore r v s.core = some c) (hi : s.core.phase = .idle) :
    ∃ t, busWrite off bytes v s = (.accepted, t) ∧ t.core = c ∧ t.host = s.host ∧ t.schedule = s.schedule :=
  ⟨s.written c, busWrite_idle h hw hi, s.written_core .., s.written_host .., s.written_schedule ..⟩

end

/-- R57: a written IN byte reads as its value. -/
theorem State.hostInByte_of_read {s : State} {j : Nat} {y : Byte} (h : Memory.read s.core.inBuf j = some y) :
    s.hostInByte j = y := by
  rw [State.hostInByte, h, Option.getD_some]

/-- R57: byte `i` of a written IN_BUF word, the lowest-numbered from bits 31:24. -/
theorem CoreState.writeInWord_read_inside (c : CoreState) (j : Nat) (v : Word) {i : Nat} (hi : i < 4) :
    Memory.read (c.writeInWord j v).inBuf (4 * j + i) = some (v.extractLsb' (24 - 8 * i) 8) := by
  have inside : 4 * j ≤ 4 * j + i ∧ 4 * j + i < 4 * j + (wordBytes v).length :=
    ⟨Nat.le_add_right .., Nat.add_lt_add_left hi _⟩
  rw [CoreState.writeInWord_inBuf, Memory.read_writeBytes, if_pos inside, Nat.add_sub_cancel_left]
  match i, hi with
  | 0, _ | 1, _ | 2, _ | 3, _ => rfl

theorem CoreState.writeInWord_read_outside (c : CoreState) (j : Nat) (v : Word) {a : Nat}
    (ha : a < 4 * j ∨ 4 * j + 3 < a) : Memory.read (c.writeInWord j v).inBuf a = Memory.read c.inBuf a := by
  have length : (wordBytes v).length = 4 := rfl
  rw [CoreState.writeInWord_inBuf, Memory.read_writeBytes, if_neg (by omega)]

end Sys2Proof.Machine
end

section
/-! PROOFS. The invariant of the block: each update of the state keeps it, so every step and every run does. -/

namespace Sys2Proof.Machine

/-- `StatusOk` reads the phase and the flags only. -/
theorem CoreState.StatusOk.of_flags_eq {c d : CoreState} (h : c.StatusOk) (hp : d.phase = c.phase)
    (hd : d.done = c.done) (he : d.err = c.err) (hc : d.errCode = c.errCode) : d.StatusOk := by
  obtain ⟨quiet, notBoth, code, legal⟩ := h
  constructor <;> simpa only [hp, hd, he, hc]

theorem CoreState.StatusOk.issue (w : Word) (c : CoreState) : (c.issue w).StatusOk := by
  constructor <;> simp

theorem CoreState.StatusOk.raiseError (e : JobError) (c : CoreState) : (c.raiseError e).StatusOk := by
  obtain ⟨nonzero, legal⟩ := e.code_bounds
  constructor <;> simp [nonzero, legal]

/-- A job that completes was in flight, so ERR was 0 (R42). -/
theorem CoreState.StatusOk.complete {c : CoreState} (h : c.StatusOk) (hb : c.phase = .busy) : c.complete.StatusOk := by
  obtain ⟨-, noErr⟩ := h.busy_quiet hb
  have code : c.errCode = 0#4 := by simpa [noErr] using h.code_iff_err
  constructor <;> simp [noErr, code]

/-- R56: a KEYn write leaves no unsupplied quarter other than 0, since it supplies the one it writes. -/
theorem CoreState.KeyOk.writeKey {c : CoreState} (h : c.KeyOk) (n : Fin 4) (v : Word) : (c.writeKey n v).KeyOk := by
  intro m hm
  rw [CoreState.writeKey_keyv, keyvSet_getLsbD _ _ m.isLt, Bool.or_eq_false_iff, decide_eq_false_iff_not] at hm
  obtain ⟨other, unsupplied⟩ := hm
  rw [CoreState.writeKey_key, keyInsert_quarter_other _ _ fun heq => other (congrArg Fin.val heq)]
  exact h m unsupplied

theorem CoreState.reset_inv : CoreState.reset.Inv where
  status := by constructor <;> simp
  inOk := Memory.Ok.nil
  outOk := Memory.Ok.nil
  keyOk := fun _ _ => by simp

/-- Every accepted write keeps the invariant; a window word must lie inside the buffer. -/
theorem writeCore_inv {r : Region} {v : Word} {c d : CoreState} (h : c.Inv) (hw : writeCore r v c = some d)
    (hr : ∀ j, r = .inBuf j → 4 * j + 4 ≤ Config.bufBytes) : d.Inv := by
  obtain ⟨status, inOk, outOk, keyOk⟩ := h
  have same : ∀ {d : CoreState}, d.phase = c.phase → d.done = c.done → d.err = c.err → d.errCode = c.errCode →
      d.StatusOk := status.of_flags_eq
  cases r with
  | cmd => cases hw; exact ⟨.issue v c, inOk, outOk, keyOk⟩
  | key n => cases hw; exact ⟨same rfl rfl rfl rfl, inOk, outOk, keyOk.writeKey n v⟩
  | inBuf j =>
    cases hw
    exact ⟨same rfl rfl rfl rfl, inOk.writeBytes _ _ (hr j rfl), outOk, keyOk⟩
  | count | ctx | bitLen | inLen => cases hw; exact ⟨same rfl rfl rfl rfl, inOk, outOk, keyOk⟩
  | status | tag | outBuf => cases hw

theorem raiseError_inv {c : CoreState} (h : c.Inv) (e : JobError) : (c.raiseError e).Inv :=
  ⟨.raiseError e c, h.inOk, h.outOk, h.keyOk⟩

/-- A CONF that passed its checks writes OUT inside the buffer: the bit length is at most MAX_BITLEN (R274). -/
theorem performConf_complete_inv {c d : CoreState} (h : c.Inv) (hb : c.phase = .busy) (hc : c.Checks)
    (hp : performConf c = .next d) : d.complete.Inv := by
  obtain ⟨m, hm, rfl⟩ := performConf_eq_next.mp hp
  obtain ⟨hlen, -⟩ := CoreState.message_eq_some.mp hm
  have fits : nbytes c.bits ≤ Config.bufBytes := nbytes_le_iff.mpr hc.ceiling
  refine ⟨(h.status.complete hb).of_flags_eq rfl rfl rfl rfl, h.inOk, h.outOk.writeBytes 0 _ ?_, h.keyOk⟩
  rwa [confFn_length _ _ _ _ _ hlen.ge, Nat.zero_add]

theorem performInteg_complete_inv {c d : CoreState} (h : c.Inv) (hb : c.phase = .busy)
    (hp : performInteg c = .next d) : d.complete.Inv := by
  obtain ⟨m, tag, -, -, rfl⟩ := performInteg_eq_next.mp hp
  exact ⟨(h.status.complete hb).of_flags_eq rfl rfl rfl rfl, h.inOk, h.outOk, h.keyOk⟩

theorem hostTurn_inv {s t : State} (h : s.Inv) (ht : hostTurn s = .next t) : t.Inv := by
  rcases hostTurn_core ht with same | ⟨o, off, bytes, v, r, c, -, -, -, target, write, core⟩
  · exact (congrArg CoreState.Inv same).mpr h
  · refine (congrArg CoreState.Inv core).mpr (writeCore_inv h write fun j hj => ?_)
    exact accessTarget_inBuf (hj ▸ target)

theorem engineTurn_inv {s t : State} (h : s.Inv) (ht : engineTurn s = .next t) : t.Inv := by
  rcases engineTurn_core ht with ⟨-, rfl⟩ | ⟨-, e, -, rfl⟩ | ⟨hb, -, checks, c, hc, rfl⟩ | ⟨hb, -, -, c, hc, rfl⟩
  · exact h
  · exact raiseError_inv h e
  · exact performConf_complete_inv h hb checks hc
  · exact performInteg_complete_inv h hb hc

/-- Every agent's turn keeps the invariant. -/
theorem takeTurn_inv {u : Turn} {s t : State} (h : s.Inv) (ht : takeTurn u s = .next t) : t.Inv := by
  cases u with
  | host => exact hostTurn_inv h ht
  | engine => exact engineTurn_inv h ht
  | reset => cases ht; exact CoreState.reset_inv

/-- Every step keeps the invariant: using up a turn of the schedule leaves the block. -/
theorem step_inv {s t : State} (h : s.Inv) (ht : step s = .next t) : t.Inv :=
  takeTurn_inv (s := s.turnTaken) h ht

/-- What every step keeps, every run keeps. -/
theorem run_induction {P : State → Prop} (keep : ∀ s t, P s → step s = .next t → P t) {k : Nat} {s t : State}
    (h : P s) (hr : Sys2Proof.core.run k s = .next t) : P t := by
  induction k generalizing s with
  | zero => cases hr; exact h
  | succ k ih =>
    cases hs : step s with
    | next u => exact ih (keep s u h hs) (run_succ_next k hs ▸ hr)
    | fault r => rw [run_succ_fault k hs] at hr; cases hr
    | refused r => rw [run_succ_refused k hs] at hr; cases hr

theorem run_inv {k : Nat} {s t : State} (h : s.Inv) (hr : Sys2Proof.core.run k s = .next t) : t.Inv :=
  run_induction (fun _ _ => step_inv) h hr

/-- Settles O55: every step keeps the invariant, and the STATUS word shows the flags of the state reached. -/
theorem statusInvariantsAlongRuns : Obligations.StatusInvariantsAlongRuns := by
  refine ⟨fun s hs => (congrArg CoreState.Inv hs).mpr CoreState.reset_inv, fun k s t h hr => ?_⟩
  obtain ⟨quiet, notBoth, code, -⟩ := (run_inv h hr).status
  obtain ⟨bit0, bit1, bit2, bit3⟩ := t.core.statusWord_flags
  rw [bit0, bit1, bit2, CoreState.statusWord_errCode, CoreState.busy_eq_true]
  refine ⟨quiet, notBoth, fun noErr => ?_, bit3, t.core.statusWord_reserved⟩
  simpa [noErr] using code

end Sys2Proof.Machine
end

section
/-! PROOFS. The registers and the IN_BUF window over the bus (10 sections 3 to 5). -/

namespace Sys2Proof.Machine

/-- Settles O43: the write reaches KEYn, whose quarter and KEYV bit are said by `keyInsert` bit by bit. -/
theorem keyWrites : Obligations.KeyWrites := by
  intro s n v off
  have target := accessTarget_keyOffset n
  refine ⟨fun hb => busWrite_busy target hb v, busRead_of_target target s, fun hi => ?_⟩
  obtain ⟨t, ht, hcore, hhost, hsched⟩ := busWrite_stores target (v := v) rfl hi
  refine ⟨t, keyInsert s.core.key n v, s.core.keyv ||| (1#4 <<< n.val), ht, hcore, hhost, hsched,
    keyInsert_quarter_same .., fun i _ outside => ?_, fun i hi => keyvSet_getLsbD _ _ hi, ?_⟩
  · rw [keyInsert_getLsbD, if_neg (by omega)]
  · rintro rfl
    exact keyInsert_highByte s.core.key v

/-- Settles O44: the write and the read reach window word `j`, byte by byte. -/
theorem inputWindow : Obligations.InputWindow := by
  intro s j v hj off
  have target := accessTarget_inWord hj
  refine ⟨fun hb => busWrite_busy target hb v, fun hi => ?_, ?_⟩
  · obtain ⟨t, ht, hcore, hhost, hsched⟩ := busWrite_stores target (v := v) rfl hi
    have byte := fun i (hi : i < 4) => s.core.writeInWord_read_inside j v hi
    exact ⟨t, (s.core.writeInWord j v).inBuf, ht, hcore, hhost, hsched, byte 0 (by decide), byte 1 (by decide),
      byte 2 (by decide), byte 3 (by decide), fun a => s.core.writeInWord_read_outside j v⟩
  · exact ⟨s.hostInByte (4 * j), s.hostInByte (4 * j + 1), s.hostInByte (4 * j + 2), s.hostInByte (4 * j + 3),
      busRead_of_target target s, fun _ => State.hostInByte_of_read, fun _ => State.hostInByte_of_read,
      fun _ => State.hostInByte_of_read, fun _ => State.hostInByte_of_read⟩

/-- Settles O46: no word takes a write of STATUS, TAG or OUT_BUF, CMD and KEYn read 0, and the reserved bits are no
part of what is stored. -/
theorem readOnlyAndWriteOnlyState : Obligations.ReadOnlyAndWriteOnlyState := by
  intro s v v'
  obtain ⟨-, -, -, statusBit3⟩ := s.core.statusWord_flags
  have ctx : accessTarget 0x00000C#24 4 = some .ctx := rfl
  refine ⟨busWrite_ignored (r := .status) rfl rfl, busWrite_ignored (r := .tag) rfl rfl,
    fun j hj => busWrite_ignored (accessTarget_outWord hj) rfl, busRead_of_target (r := .cmd) rfl s,
    fun n => busRead_of_target (accessTarget_keyOffset n) s, s.core.statusWord_reserved, statusBit3,
    ⟨s.core.ctxWord, busRead_of_target ctx s, s.core.ctxWord_reserved⟩, fun low => ?_⟩
  have sameWrite : writeCore .ctx v s.core = writeCore .ctx v' s.core :=
    congrArg some (CoreState.writeCtx_congr low s.core)
  rw [busWrite_of_target ctx, busWrite_of_target ctx, writeRegion, writeRegion, sameWrite]

/-- Settles O47: each register stores in phase IDLE, is left alone in phase BUSY, and reads as stored. -/
theorem readWriteRegisters : Obligations.ReadWriteRegisters := by
  intro s v
  have ctx : accessTarget 0x00000C#24 4 = some .ctx := rfl
  refine ⟨fun hi => ⟨busWrite_stores (r := .count) rfl rfl hi, busWrite_stores (r := .bitLen) rfl rfl hi,
      busWrite_stores (r := .inLen) rfl rfl hi, ?_⟩, fun hb off hoff => ?_,
    fun hb j hj => busWrite_busy (accessTarget_inWord hj) hb v, busRead_of_target (r := .count) rfl s,
    busRead_of_target (r := .bitLen) rfl s, busRead_of_target (r := .inLen) rfl s, busRead_of_target ctx s⟩
  · obtain ⟨t, ht, hcore, hhost, hsched⟩ := busWrite_stores ctx (v := v) rfl hi
    have readsBack : t.core.ctxWord = (v.extractLsb' 0 9).setWidth 32 := by rw [hcore, CoreState.writeCtx_ctxWord]
    exact ⟨t, ht, hhost, hsched, hcore, readsBack ▸ busRead_of_target ctx t⟩
  · have mapped : ∃ r, accessTarget off 4 = some r := by
      fin_cases hoff <;> exact ⟨_, rfl⟩
    obtain ⟨r, target⟩ := mapped
    exact busWrite_busy target hb v

end Sys2Proof.Machine
end

section
/-! PROOFS. The address map: its holes, the bus error they give, and BASE (10 section 2, 20 sections 1 and 2). -/

namespace Sys2Proof.Machine

/-- A bus error is the reply to an access that goes nowhere, and changes nothing (R73, R74). -/
theorem busError_of_no_target {off : Offset} {bytes : Nat} (h : accessTarget off bytes = none) (s : State) (v : Word) :
    busRead off bytes s = (.busError, s) ∧ busWrite off bytes v s = (.busError, s) := by
  simp only [busRead, busWrite, h, and_self]

theorem accessTarget_bad_shape {off : Offset} {bytes : Nat} (h : bytes ≠ 4 ∨ off.toNat % 4 ≠ 0) :
    accessTarget off bytes = none :=
  if_neg (not_and_or.mpr h)

/-- R34: KEY3 at 0x2C is the last register. -/
theorem registerAt_beyond {n : Nat} (h : 0x30 ≤ n) : registerAt n = none := by
  have beyond : ∀ k < 0x30, n ≠ k := fun k hk => by omega
  simp [registerAt, beyond]

/-- Outside both buffers an offset maps to a register or nowhere. -/
theorem mapOffset_outside_buffers {off : Offset}
    (notIn : off.toNat < 0x100000 ∨ 0x100000 + Config.bufBytes ≤ off.toNat + 3)
    (notOut : off.toNat < 0x200000 ∨ 0x200000 + Config.bufBytes ≤ off.toNat + 3) :
    mapOffset off = registerAt off.toNat := by
  rw [mapOffset, if_neg (by omega), if_neg (by omega)]

/-- R74: the unmapped offsets. Either buffer ends inside its own 1 MiB window, so it reaches no other hole. -/
theorem mapOffset_hole {off : Offset}
    (hole : off.toNat = 0x00001C ∨ (0x000030 ≤ off.toNat ∧ off.toNat ≤ 0x0FFFFF) ∨
      (∃ j, off.toNat = 0x100000 + 4 * j ∧ off.toNat ≤ 0x1FFFFF ∧ Config.bufBytes ≤ 4 * j + 3) ∨
      (∃ j, off.toNat = 0x200000 + 4 * j ∧ off.toNat ≤ 0x2FFFFF ∧ Config.bufBytes ≤ 4 * j + 3) ∨
      0x300000 ≤ off.toNat) : mapOffset off = none := by
  obtain ⟨-, -, bound⟩ := Config.bufBytes_bounds
  rcases hole with gap | ⟨above, below⟩ | ⟨j, word, below, past⟩ | ⟨j, word, below, past⟩ | above
  · rw [mapOffset_outside_buffers (by omega) (by omega), gap]
    rfl
  all_goals exact (mapOffset_outside_buffers (by omega) (by omega)).trans (registerAt_beyond (by omega))

/-- R70, R81: the host address of an offset is BASE plus it, and no other address has that offset. -/
theorem offsetOf_eq_some {addr : Nat} {off : Offset} : offsetOf addr = some off ↔ addr = Config.base + off.toNat := by
  constructor
  · intro h
    obtain ⟨⟨low, high⟩, ⟨⟩⟩ := Option.ite_none_right_eq_some.mp h
    have fits : addr - Config.base < 2 ^ 24 := by omega
    rw [BitVec.toNat_ofNat, Nat.mod_eq_of_lt fits]
    omega
  · rintro rfl
    have inWindow : Config.base ≤ Config.base + off.toNat ∧ Config.base + off.toNat < Config.base + 2 ^ 24 :=
      ⟨Nat.le_add_right .., Nat.add_lt_add_left off.isLt _⟩
    rw [offsetOf, if_pos inWindow, Nat.add_sub_cancel_left, BitVec.ofNat_toNat, BitVec.setWidth_eq]

/-- Settles O40: an access of the wrong width or alignment goes nowhere. -/
theorem badWidthOrAlignmentIsABusError : Obligations.BadWidthOrAlignmentIsABusError :=
  fun s _ _ v h => busError_of_no_target (accessTarget_bad_shape h) s v

/-- Settles O41: the registers and buffer words by their offsets, the holes by `mapOffset_hole`, and BASE. -/
theorem addressMap : Obligations.AddressMap := by
  refine ⟨⟨rfl, rfl, rfl, rfl, rfl, rfl, rfl, accessTarget_keyOffset, fun j hj => ?_⟩,
    fun s off v aligned hole => ?_, fun off => offsetOf_eq_some.mpr rfl, fun addr off => offsetOf_eq_some.mp⟩
  · exact ⟨accessTarget_inWord hj, accessTarget_outWord hj⟩
  · exact busError_of_no_target ((accessTarget_aligned aligned).trans (mapOffset_hole hole)) s v

end Sys2Proof.Machine
end

section
/-! PROOFS. Words the decoder refuses, and the job such a word ends (30 section 1, 60 R276). -/

namespace Sys2Proof.Machine

/-- R103: MBZ is checked first, whatever OP is. -/
theorem decode_of_mbz_ne_zero {w : Word} (mbz : cmdMbz w ≠ 0#24) : decode w = .illegal .mbzNonzero := if_pos mbz

/-- R103: with MBZ 0, every OP that no command has is reserved. -/
theorem decode_of_no_opcode {w : Word} (mbz : cmdMbz w = 0#24) (op : ∀ i, cmdOp w ≠ opcode i) :
    decode w = .illegal (.reservedOp (cmdOp w)) := by
  have notConf : cmdOp w ≠ 0x01#8 := op .conf
  have notInteg : cmdOp w ≠ 0x02#8 := op .integ
  rw [decode, if_neg (not_not_intro mbz), if_neg notConf, if_neg notInteg]

/-- R101: the two opcodes are 1 and 2. -/
theorem opcode_ne_of_reserved {op : BitVec 8} (reserved : op = 0#8 ∨ 3 ≤ op.toNat) (i : Instr) : op ≠ opcode i := by
  rintro rfl
  cases i <;> exact absurd reserved (by decide)

theorem decode_illegal_of_reserved {w : Word} (h : cmdOp w = 0#8 ∨ 3 ≤ (cmdOp w).toNat ∨ cmdMbz w ≠ 0#24) :
    ∃ why, decode w = .illegal why := by
  by_cases mbz : cmdMbz w = 0#24
  · have reserved : cmdOp w = 0#8 ∨ 3 ≤ (cmdOp w).toNat := h.imp_right (·.resolve_right (not_not_intro mbz))
    exact ⟨_, decode_of_no_opcode mbz (opcode_ne_of_reserved reserved)⟩
  · exact ⟨_, decode_of_mbz_ne_zero mbz⟩

/-- R102, R276: the completion of a job whose word decodes to nothing is the error completion, from every state. -/
theorem engineTurn_of_illegal {s : State} {why : IllegalWord} (hb : s.core.phase = .busy)
    (hd : decode s.core.jobCmd = .illegal why) :
    engineTurn s = .next (s.withCore (s.core.raiseError .illegalCommand)) := by
  simp only [engineTurn, hb, hd, runIllegal]

/-- R130: CMD takes every word in phase IDLE, and nothing is checked at issue. -/
theorem busWrite_cmd_idle {s : State} (hi : s.core.phase = .idle) (w : Word) :
    busWrite 0x000000#24 4 w s = (.accepted, s.written (s.core.issue w)) :=
  busWrite_idle (r := .cmd) rfl rfl hi

/-- Settles O3: the word is stored unchecked at issue, decodes to ILLEGAL, and so ends in the error completion, whose
fields are those of `raiseError`. -/
theorem reservedWordsEndWithIllegalCommand : Obligations.ReservedWordsEndWithIllegalCommand := by
  intro w reserved
  obtain ⟨why, illegal⟩ := decode_illegal_of_reserved reserved
  refine ⟨⟨why, illegal⟩, fun s hi => ⟨_, busWrite_cmd_idle hi w, ?_⟩, fun s hb hw => ?_⟩
  · simp only [State.written_core, CoreState.issue_phase, CoreState.issue_jobCmd, and_self]
  · exact ⟨_, engineTurn_of_illegal hb (hw ▸ illegal), rfl, rfl, rfl, rfl, rfl, rfl⟩

end Sys2Proof.Machine
end

section
/-! PROOFS. The header and the counter block as concatenations, and the bits each field fills (30 section 3). -/

namespace Sys2Proof.Machine

section
variable (c : Word) (b : BitVec 5) (d : BitVec 1) (i : BitVec 64)

/-- R111, with the fields nested so that each lies above what follows it. -/
theorem header_eq_append : header c b d = c ++ (b ++ (d ++ 0#26)) := by
  apply BitVec.eq_of_toNat_eq
  simp only [header_toNat, append_toNat, BitVec.toNat_ofNat]
  omega

/-- R112: the high half of the counter block is the header, the low half the block index. -/
theorem counterBlock_eq_append : counterBlock c b d i = header c b d ++ i := by
  apply BitVec.eq_of_toNat_eq
  rw [append_toNat, counterBlock_toNat, header_toNat]
  omega

theorem header_extract_count {lo n : Nat} (h : 32 ≤ lo) :
    (header c b d).extractLsb' lo n = c.extractLsb' (lo - 32) n := by
  rw [header_eq_append]
  exact BitVec.extractLsb'_append_eq_of_le h

/-- Below COUNT lies what is left of the concatenation. -/
theorem header_extract_low {lo n : Nat} (h : lo + n ≤ 32) :
    (header c b d).extractLsb' lo n = (b ++ (d ++ 0#26)).extractLsb' lo n := by
  rw [header_eq_append]
  exact BitVec.extractLsb'_append_eq_of_add_le h

theorem header_extract_bearer : (header c b d).extractLsb' 27 5 = b :=
  (header_extract_low c b d (by decide)).trans BitVec.extractLsb'_append_eq_left

theorem header_extract_direction : (header c b d).extractLsb' 26 1 = d := by
  rw [header_extract_low c b d (by decide), BitVec.extractLsb'_append_eq_of_add_le (by decide)]
  exact BitVec.extractLsb'_append_eq_left

theorem header_extract_zero {lo n : Nat} (h : lo + n ≤ 26) : (header c b d).extractLsb' lo n = 0#n := by
  rw [header_extract_low c b d (by omega), BitVec.extractLsb'_append_eq_of_add_le (by omega),
    BitVec.extractLsb'_append_eq_of_add_le h, BitVec.extractLsb'_zero]

/-- R110: the byte that BEARER and DIRECTION share, `bearer << 3 | direction << 2`. -/
theorem header_extract_contextByte :
    (header c b d).extractLsb' 24 8 = (b.setWidth 8 <<< 3) ||| (d.setWidth 8 <<< 2) := by
  rw [header_extract_low c b d (by decide)]
  ext j hj
  have aboveDirection : 3 ≤ j → d.getLsbD (j - 2) = false := fun h => BitVec.getLsbD_of_ge d _ (by omega)
  simp only [BitVec.getElem_extractLsb', BitVec.getElem_or, BitVec.getElem_shiftLeft, BitVec.getElem_setWidth,
    BitVec.getLsbD_append, BitVec.getLsbD_zero]
  grind

theorem counterBlock_extract_header {lo n : Nat} (h : 64 ≤ lo) :
    (counterBlock c b d i).extractLsb' lo n = (header c b d).extractLsb' (lo - 64) n := by
  rw [counterBlock_eq_append]
  exact BitVec.extractLsb'_append_eq_of_le h

theorem counterBlock_extract_index {lo n : Nat} (h : lo + n ≤ 64) :
    (counterBlock c b d i).extractLsb' lo n = i.extractLsb' lo n := by
  rw [counterBlock_eq_append]
  exact BitVec.extractLsb'_append_eq_of_add_le h

end

/-- Settles O5: the counter block is the header before the index, so its fields are the header's, 64 bits
higher, and its first eight bytes are the header's. -/
theorem counterBlockLayout : Obligations.CounterBlockLayout := by
  intro c b d i
  have count : (header c b d).extractLsb' 32 32 = c :=
    (header_extract_count c b d (by decide)).trans BitVec.extractLsb'_eq_self
  have bearer := header_extract_bearer c b d
  have direction := header_extract_direction c b d
  have zero : (header c b d).extractLsb' 0 26 = 0#26 := header_extract_zero c b d (by decide)
  have index : (counterBlock c b d i).extractLsb' 0 64 = i :=
    (counterBlock_extract_index c b d i (by decide)).trans BitVec.extractLsb'_eq_self
  have high {lo n : Nat} : (counterBlock c b d i).extractLsb' (64 + lo) n = (header c b d).extractLsb' lo n := by
    rw [counterBlock_extract_header c b d i (Nat.le_add_right ..), Nat.add_sub_cancel_left]
  refine ⟨high.trans count, high.trans bearer, high.trans direction, high.trans zero, index, count, bearer, direction,
    zero, high.trans BitVec.extractLsb'_eq_self, ?_⟩
  simp [blockBytes, List.range_succ, counterBlock_extract_header, counterBlock_extract_index, header_extract_count,
    header_extract_contextByte, header_extract_zero]

end Sys2Proof.Machine
end

section
/-! PROOFS. The host bus in phase BUSY, and command issue (40 section 1). -/

namespace Sys2Proof.Machine

/-- R36: STATUS shows the phase, the flags and KEYV, and nothing else of the block. -/
theorem CoreState.statusWord_congr {c d : CoreState} (phase : c.phase = d.phase) (done : c.done = d.done)
    (err : c.err = d.err) (errCode : c.errCode = d.errCode) (keyv : c.keyv = d.keyv) :
    c.statusWord = d.statusWord := by
  have busy : c.busy = d.busy := by rw [CoreState.busy, CoreState.busy, phase]
  simp only [CoreState.statusWord, busy, done, err, errCode, keyv]

/-- R40, R42: in phase BUSY no flag of an earlier job is left. -/
theorem CoreState.StatusOk.busy_flags {c : CoreState} (h : c.StatusOk) (hb : c.phase = .busy) :
    c.done = false ∧ c.err = false ∧ c.errCode = 0#4 := by
  obtain ⟨noDone, noErr⟩ := h.busy_quiet hb
  have code : c.errCode = 0#4 := by simpa [noErr] using h.code_iff_err
  exact ⟨noDone, noErr, code⟩

/-- R133: the STATUS word of a job in flight shows KEYV and BUSY. -/
theorem CoreState.StatusOk.busy_statusWord {c : CoreState} (h : c.StatusOk) (hb : c.phase = .busy) :
    c.statusWord = 0#20 ++ c.keyv ++ 0x01#8 := by
  obtain ⟨noDone, noErr, code⟩ := h.busy_flags hb
  have busy : c.busy = true := CoreState.busy_eq_true.mpr hb
  apply BitVec.eq_of_toNat_eq
  rw [CoreState.statusWord_toNat, noDone, noErr, code, busy]
  simp only [append_toNat, BitVec.toNat_ofNat, Bool.toNat_true, Bool.toNat_false]
  omega

theorem readRegion_status {s : State} (h : s.core.errCode.toNat ≤ 5) :
    readRegion .status s = (.data s.core.statusWord, s) := by
  rw [readRegion, if_neg (Nat.not_lt.mpr h)]

/-- R133: the draw that TAG reads as in phase BUSY. -/
theorem readRegion_tag_busy {s : State} (hb : s.core.phase = .busy) :
    readRegion .tag s = (.data (Config.busyTag s.draws), s.drawn) :=
  if_pos (CoreState.busy_eq_true.mpr hb)

/-- R133: the draw that an OUT_BUF word reads as in phase BUSY. -/
theorem readRegion_outBuf_busy {s : State} (hb : s.core.phase = .busy) (j : Nat) :
    readRegion (.outBuf j) s = (.data (Config.busyOutWord s.draws j), s.drawn) :=
  if_pos (CoreState.busy_eq_true.mpr hb)

/-- R57: a wholly written IN_BUF word, in either phase, the lowest-numbered byte first. -/
theorem readRegion_inBuf_written {s : State} {j : Nat} {x0 x1 x2 x3 : Byte}
    (h0 : Memory.read s.core.inBuf (4 * j) = some x0) (h1 : Memory.read s.core.inBuf (4 * j + 1) = some x1)
    (h2 : Memory.read s.core.inBuf (4 * j + 2) = some x2) (h3 : Memory.read s.core.inBuf (4 * j + 3) = some x3) :
    readRegion (.inBuf j) s = (.data (x0 ++ x1 ++ x2 ++ x3), s) := by
  rw [readRegion, wordAt, State.hostInByte_of_read h0, State.hostInByte_of_read h1, State.hostInByte_of_read h2,
    State.hostInByte_of_read h3]

/-- Settles O38: each offset reaches its word, and `readRegion` says what that word reads as in phase BUSY. -/
theorem readsWhileBusy : Obligations.ReadsWhileBusy := by
  intro s hb hs
  have status : readRegion .status s = (.data (0#20 ++ s.core.keyv ++ 0x01#8), s) := by
    rw [readRegion_status hs.code_legal, hs.busy_statusWord hb]
  refine ⟨(busRead_of_target rfl s).trans status, busRead_of_target (r := .count) rfl s,
    busRead_of_target (r := .ctx) rfl s, busRead_of_target (r := .bitLen) rfl s, busRead_of_target (r := .inLen) rfl s,
    busRead_of_target (r := .cmd) rfl s, fun n => busRead_of_target (accessTarget_keyOffset n) s, ?tag,
    fun j hj => ⟨?outBuf, fun x0 x1 x2 x3 h0 h1 h2 h3 => ?inBuf⟩⟩
  case tag => exact ⟨_, _, (busRead_of_target rfl s).trans (readRegion_tag_busy hb), s.drawn_core⟩
  case outBuf =>
    exact ⟨_, _, (busRead_of_target (accessTarget_outWord hj) s).trans (readRegion_outBuf_busy hb j), s.drawn_core⟩
  case inBuf => exact (busRead_of_target (accessTarget_inWord hj) s).trans (readRegion_inBuf_written h0 h1 h2 h3)

/-- Settles O36: CMD takes every word, and the block becomes `issue` of it. -/
theorem commandIssue : Obligations.CommandIssue :=
  fun _ _ hi => busWrite_stores (r := .cmd) rfl rfl hi

/-- Settles O37: a mapped word ignores the write, and an access that goes nowhere is a bus error. -/
theorem writesWhileBusyAreIgnored : Obligations.WritesWhileBusyAreIgnored := by
  intro s off bytes v hb
  exact ⟨fun r target => busWrite_busy target hb v, fun unmapped => (busError_of_no_target unmapped s v).right⟩

end Sys2Proof.Machine
end

section
/-! PROOFS. The engine's turn in phase BUSY, and the two ways a job ends (40 section 2, R134, R137). -/

namespace Sys2Proof.Machine

/-- R134: the completion step of a legal command is that command's. -/
theorem engineTurn_of_instr {s : State} {i : Instr} (hb : s.core.phase = .busy)
    (hd : decode s.core.jobCmd = .instr i) : engineTurn s = exec i s := by
  simp only [engineTurn, hb, hd]

section
variable {s : State} (hb : s.core.phase = .busy)
include hb

/-- R271: a job that fails a check, or whose word decodes to nothing, takes the error completion. -/
theorem engineTurn_of_error {e : JobError} (h : check (decode s.core.jobCmd) s.core = some e) :
    engineTurn s = .next (s.withCore (s.core.raiseError e)) := by
  cases hd : decode s.core.jobCmd with
  | illegal why =>
    rw [hd] at h
    cases h
    exact engineTurn_of_illegal hb hd
  | instr i =>
    rw [hd] at h
    have failed {perform} : runJob i perform s = .next (s.withCore (s.core.raiseError e)) :=
      runJob_eq_next.mpr (.inl ⟨e, h, rfl⟩)
    rw [engineTurn_of_instr hb hd]
    cases i with
    | conf | integ => exact failed

theorem engineTurn_of_conf {d : CoreState} (hd : decode s.core.jobCmd = .instr .conf) (checks : s.core.Checks)
    (h : performConf s.core = .next d) : engineTurn s = .next (s.withCore d.complete) :=
  (engineTurn_of_instr hb hd).trans (runJob_eq_next.mpr (.inr ⟨check_eq_none.mpr checks, d, h, rfl⟩))

theorem engineTurn_of_integ {d : CoreState} (hd : decode s.core.jobCmd = .instr .integ) (checks : s.core.Checks)
    (h : performInteg s.core = .next d) : engineTurn s = .next (s.withCore d.complete) :=
  (engineTurn_of_instr hb hd).trans (runJob_eq_next.mpr (.inr ⟨check_eq_none.mpr checks, d, h, rfl⟩))

end

/-- R168: CONF writes OUT and nothing else. -/
theorem performConf_frame {c d : CoreState} (h : performConf c = .next d) : d = { c with outBuf := d.outBuf } := by
  obtain ⟨m, -, rfl⟩ := performConf_eq_next.mp h
  rfl

/-- R200: INTEG writes TAG and nothing else. -/
theorem performInteg_frame {c d : CoreState} (h : performInteg c = .next d) : d = { c with tag := d.tag } := by
  obtain ⟨m, tag, -, -, rfl⟩ := performInteg_eq_next.mp h
  rfl

/-- What CONF writes does not enter STATUS. -/
theorem performConf_complete_statusWord {c d : CoreState} (h : performConf c = .next d) :
    d.complete.statusWord = c.complete.statusWord := by
  rw [performConf_frame h]
  rfl

/-- What INTEG writes does not enter STATUS. -/
theorem performInteg_complete_statusWord {c d : CoreState} (h : performInteg c = .next d) :
    d.complete.statusWord = c.complete.statusWord := by
  rw [performInteg_frame h]
  rfl

/-- Settles O11: the cases of the engine's turn are the error completion, whose code is one of R270, and the two
commands, which complete with the flags that phase BUSY left clear. -/
theorem jobEndsInOneOfTwoWays : Obligations.JobEndsInOneOfTwoWays := by
  intro s t hb hs ht
  obtain ⟨-, noErr, code⟩ := hs.busy_flags hb
  rcases engineTurn_core ht with ⟨hi, -⟩ | ⟨-, e, -, rfl⟩ | ⟨-, -, checks, d, hd, rfl⟩ | ⟨-, -, checks, d, hd, rfl⟩
  · rw [hb] at hi
    cases hi
  · obtain ⟨nonzero, legal⟩ := e.code_bounds
    have positive : 1 ≤ e.code.toNat := Nat.one_le_iff_ne_zero.mpr fun h => nonzero (BitVec.eq_of_toNat_eq h)
    exact ⟨rfl, .inr ⟨rfl, rfl, positive, legal, rfl, rfl⟩⟩
  · rw [performConf_frame hd]
    exact ⟨rfl, .inl ⟨rfl, noErr, code, checks⟩⟩
  · rw [performInteg_frame hd]
    exact ⟨rfl, .inl ⟨rfl, noErr, code, checks⟩⟩

end Sys2Proof.Machine
end

section
/-! PROOFS. What the end of a job depends on (40 section 2, R139). -/

namespace Sys2Proof.Machine

/-- R139: the inputs of a job, which are equal in `c` and `d`: the command word, the registers and the message bytes. -/
structure CoreState.SameJob (c d : CoreState) : Prop where
  jobCmd : c.jobCmd = d.jobCmd
  key : c.key = d.key
  keyv : c.keyv = d.keyv
  count : c.count = d.count
  bearer : c.bearer = d.bearer
  direction : c.direction = d.direction
  bitLen : c.bitLen = d.bitLen
  inLen : c.inLen = d.inLen
  bytes : ∀ j, j < nbytes d.bits → Memory.read c.inBuf j = Memory.read d.inBuf j

namespace CoreState.SameJob
variable {c d : CoreState} (same : c.SameJob d)
include same

theorem check_eq (op : Decoded) : check op c = check op d := by
  unfold check CoreState.keyReady
  rw [same.keyv, same.bearer, same.bitLen, same.inLen]

theorem checks (h : d.Checks) : c.Checks :=
  check_eq_none.mp ((same.check_eq (.instr .conf)).trans (check_eq_none.mpr h))

theorem bits_eq : c.bits = d.bits := congrArg BitVec.toNat same.bitLen

theorem message_eq_some {m : List Byte} (h : d.message = some m) : c.message = some m := by
  obtain ⟨length, written⟩ := CoreState.message_eq_some.mp h
  rw [← same.bits_eq] at length written
  refine CoreState.message_eq_some.mpr ⟨length, fun j hj => ?_⟩
  rw [same.bytes j (same.bits_eq ▸ hj), written j hj]

/-- Equal inputs give CONF the same OUT bytes below nbytes(L). -/
theorem performConf_out {d' : CoreState} (h : performConf d = .next d') :
    ∃ c', performConf c = .next c' ∧
      ∀ j, j < nbytes d.bits → Memory.read c'.outBuf j = Memory.read d'.outBuf j := by
  obtain ⟨m, hm, rfl⟩ := performConf_eq_next.mp h
  obtain ⟨length, -⟩ := CoreState.message_eq_some.mp hm
  refine ⟨_, performConf_eq_next.mpr ⟨m, same.message_eq_some hm, rfl⟩, fun j hj => ?_⟩
  simp only [CoreState.bearer5, same.bits_eq, same.key, same.count, same.bearer, same.direction,
    Memory.read_writeBytes, confFn_length _ _ _ _ _ length.ge, Nat.zero_add, Nat.zero_le, true_and, if_pos hj]

/-- Equal inputs give INTEG the same TAG. -/
theorem performInteg_tag {d' : CoreState} (h : performInteg d = .next d') :
    ∃ c', performInteg c = .next c' ∧ c'.tag = d'.tag := by
  obtain ⟨m, tag, hm, htag, rfl⟩ := performInteg_eq_next.mp h
  refine ⟨{ c with tag := tag }, performInteg_eq_next.mpr ⟨m, tag, same.message_eq_some hm, ?_, rfl⟩, rfl⟩
  simpa only [CoreState.bearer5, same.bits_eq, same.key, same.count, same.bearer, same.direction] using htag

theorem raiseError_statusWord_eq (e : JobError) : (c.raiseError e).statusWord = (d.raiseError e).statusWord :=
  CoreState.statusWord_congr rfl rfl rfl rfl same.keyv

/-- Both jobs were in flight, so neither had an error flag to leave (R42). -/
theorem complete_statusWord_eq (hc : c.StatusOk) (hd : d.StatusOk) (hbc : c.phase = .busy) (hbd : d.phase = .busy) :
    c.complete.statusWord = d.complete.statusWord := by
  obtain ⟨-, noErr, code⟩ := hc.busy_flags hbc
  obtain ⟨-, noErr', code'⟩ := hd.busy_flags hbd
  exact CoreState.statusWord_congr rfl rfl (noErr.trans noErr'.symm) (code.trans code'.symm) same.keyv

end CoreState.SameJob

/-- Settles O27: the second job takes the same case of the engine's turn as the first, with equal outputs. -/
theorem jobsAreDeterministic : Obligations.JobsAreDeterministic := by
  intro s s' t hb hb' hs hs' jobCmd key keyv count bearer direction bitLen inLen bytes ht
  have same : s'.core.SameJob s.core := ⟨jobCmd, key, keyv, count, bearer, direction, bitLen, inLen, bytes⟩
  have completed := same.complete_statusWord_eq hs' hs hb' hb
  rcases engineTurn_core ht with ⟨hi, -⟩ | ⟨-, e, he, rfl⟩ | ⟨-, hd, checks, c, hc, rfl⟩ | ⟨-, hd, checks, c, hc, rfl⟩
  · rw [hb] at hi
    cases hi
  · have failed : check (decode s'.core.jobCmd) s'.core = some e := by rw [jobCmd, same.check_eq, he]
    exact ⟨_, engineTurn_of_error hb' failed, same.raiseError_statusWord_eq e, nofun, nofun⟩
  · obtain ⟨c', hc', out⟩ := same.performConf_out hc
    have status : c'.complete.statusWord = c.complete.statusWord := by
      rw [performConf_complete_statusWord hc', performConf_complete_statusWord hc, completed]
    refine ⟨_, engineTurn_of_conf hb' (jobCmd ▸ hd) (same.checks checks) hc', status, fun _ _ => out, fun _ integ => ?_⟩
    cases hd.symm.trans integ
  · obtain ⟨c', hc', tag⟩ := same.performInteg_tag hc
    have status : c'.complete.statusWord = c.complete.statusWord := by
      rw [performInteg_complete_statusWord hc', performInteg_complete_statusWord hc, completed]
    refine ⟨_, engineTurn_of_integ hb' (jobCmd ▸ hd) (same.checks checks) hc', status, fun _ conf => ?_, fun _ _ => tag⟩
    cases hd.symm.trans conf

end Sys2Proof.Machine
end

section
/-! PROOFS. Byte lists as bit streams: `pack` and the masked XOR, stream bit by stream bit (43 sections 1 to 3). -/

namespace Sys2Proof.Machine

/-- R15: bit `i` of byte `j` is stream bit `8j + 7 - i`. -/
theorem loadBit_eq_getLsbD {buf : List Byte} {j i : Nat} {x : Byte} (hx : buf[j]? = some x) (hi : i < 8) :
    loadBit buf (8 * j + (7 - i)) = x.getLsbD i := by
  have byte : (8 * j + (7 - i)) / 8 = j := by omega
  rw [loadBit_of_getElem? (byte.symm ▸ hx), show 7 - (8 * j + (7 - i)) % 8 = i by omega]

/-- Byte lists of one length are equal when their stream bits are. -/
theorem eq_of_loadBit_eq {a b : List Byte} (length : a.length = b.length)
    (bits : ∀ p, p < 8 * a.length → loadBit a p = loadBit b p) : a = b := by
  refine List.ext_getElem length fun j ha hb => BitVec.eq_of_getLsbD_eq fun i hi => ?_
  rw [← loadBit_eq_getLsbD (List.getElem?_eq_getElem ha) hi, ← loadBit_eq_getLsbD (List.getElem?_eq_getElem hb) hi]
  exact bits _ (by omega)

/-- R234: `pack` keeps the first L stream bits and zeroes the others. -/
theorem pack_loadBit (a : List Byte) {L p : Nat} (hp : p < 8 * nbytes L) :
    loadBit (pack a L) p = (decide (p < L) && loadBit a p) := by
  have hj : p / 8 < nbytes L := by omega
  have mask : (maskbyte (p / 8) L).getLsbD (7 - p % 8) = decide (p < L) := by
    rw [maskbyte_getLsbD hj (by omega), Nat.div_add_mod]
  cases ha : a[p / 8]? with
  | none => simp [loadBit, List.getD_eq_getElem?_getD, pack_getElem?, ha]
  | some x =>
    have packed : (pack a L)[p / 8]? = some (x &&& maskbyte (p / 8) L) := by rw [pack_getElem?, if_pos hj, ha]; rfl
    rw [loadBit_of_getElem? packed, loadBit_of_getElem? ha, BitVec.getLsbD_and, mask, Bool.and_comm]

/-- R170, R234: `pack` changes nothing exactly when the bits it zeroes are zero already. -/
theorem pack_eq_self_iff {a : List Byte} {L : Nat} (length : a.length = nbytes L) :
    pack a L = a ↔ ∀ p, L ≤ p → p < 8 * nbytes L → loadBit a p = false := by
  constructor
  · intro same p outside hp
    rw [← same, pack_loadBit a hp, decide_eq_false (Nat.not_lt.mpr outside), Bool.false_and]
  · intro zero
    have packed : (pack a L).length = a.length := by rw [pack_length, length, Nat.min_self]
    refine eq_of_loadBit_eq packed fun p hp => ?_
    have hp : p < 8 * nbytes L := by omega
    rw [pack_loadBit a hp]
    by_cases inside : p < L
    · rw [decide_eq_true inside, Bool.true_and]
    · rw [decide_eq_false inside, Bool.false_and, zero p (Nat.le_of_not_lt inside) hp]

section
variable {a b : List Byte} {L : Nat} (ha : nbytes L ≤ a.length) (hb : nbytes L ≤ b.length)
include ha hb

theorem xorMasked_length_eq : (xorMasked a b L).length = nbytes L := by
  rw [xorMasked_length, Nat.min_eq_left (Nat.le_min.mpr ⟨ha, hb⟩)]

/-- R235: the masked XOR is the XOR of the first L stream bits, and zero on the others. -/
theorem xorMasked_loadBit {p : Nat} (hp : p < 8 * nbytes L) :
    loadBit (xorMasked a b L) p = (decide (p < L) && (loadBit a p ^^ loadBit b p)) := by
  have byteA := List.getElem?_eq_getElem (show p / 8 < a.length by omega)
  have byteB := List.getElem?_eq_getElem (show p / 8 < b.length by omega)
  have xored : (List.zipWith (· ^^^ ·) a b)[p / 8]? = some (a[p / 8] ^^^ b[p / 8]) := by
    simp only [List.getElem?_zipWith, byteA, byteB]
  rw [xorMasked, pack_loadBit _ hp, loadBit_of_getElem? xored, BitVec.getLsbD_xor, loadBit_of_getElem? byteA,
    loadBit_of_getElem? byteB]

/-- R235: the XOR cancels on the first L bits, and the masking zeroes the others as `pack` does. -/
theorem xorMasked_twice : xorMasked (xorMasked a b L) b L = pack a L := by
  have once := xorMasked_length_eq ha hb
  have twice := xorMasked_length_eq once.ge hb
  refine eq_of_loadBit_eq (by rw [twice, pack_length, Nat.min_eq_left ha]) fun p hp => ?_
  rw [twice] at hp
  rw [xorMasked_loadBit once.ge hb hp, xorMasked_loadBit ha hb hp, pack_loadBit a hp]
  cases decide (p < L) <;> simp

end

end Sys2Proof.Machine
end

section
/-! PROOFS. The confidentiality function: what it does to each stream bit, and to the machine's OUT (41 sections 1 to
3). -/

namespace Sys2Proof.Machine

section
variable (E : Bits128 → Bits128 → Bits128) (k : Bits128) (c : Word) (b : BitVec 5) (d : BitVec 1)

/-- R163: enough keystream for the message's bytes. -/
theorem nbytes_le_keystream_length (L : Nat) : nbytes L ≤ (keystream E k c b d (ceilDiv L 128)).length := by
  rw [keystream_length]
  exact nbytes_le_blocks L

/-- R162, R163: keystream bit `p` is in block `p div 128`, most significant bit first. -/
theorem keystream_loadBit {n p : Nat} (hp : p < 128 * n) :
    loadBit (keystream E k c b d n) p =
      (E k (counterBlock c b d (BitVec.ofNat 64 (p / 128)))).getLsbD (127 - p % 128) := by
  have bit : 120 - 8 * (p / 8 % 16) + (7 - p % 8) = 127 - p % 128 := by omega
  rw [loadBit_of_getElem? (keystream_getElem? E k c b d (by omega)), BitVec.getLsbD_extractLsb', bit,
    Nat.div_div_eq_div_mul, decide_eq_true (by omega), Bool.true_and]

/-- R164, R165: the first L output bits are the message's XOR the keystream's, and the others are zero. -/
theorem confFn_loadBit {m : List Byte} {L p : Nat} (hm : nbytes L ≤ m.length) (hp : p < 8 * nbytes L) :
    loadBit (confFn E k c b d m L) p = (decide (p < L) &&
      (loadBit m p ^^ loadBit (keystream E k c b d (ceilDiv L 128)) p)) :=
  xorMasked_loadBit hm (nbytes_le_keystream_length E k c b d L) hp

/-- R170: the keystream of the second pass cancels that of the first. -/
theorem confFn_twice {m : List Byte} {L : Nat} (hm : nbytes L ≤ m.length) :
    confFn E k c b d (confFn E k c b d m L) L = pack m L :=
  xorMasked_twice hm (nbytes_le_keystream_length E k c b d L)

end

/-- Settles O15: below L the mask keeps the bit, and the keystream's bit is its block's. -/
theorem confXorsBitForBit : Obligations.ConfXorsBitForBit := by
  intro E k c b d m L p hm hp
  have stored : p < 8 * nbytes L := Nat.lt_of_lt_of_le hp (nbytes_le_iff.mp le_rfl)
  have generated : p < 128 * ceilDiv L 128 := by
    have := nbytes_le_blocks L
    omega
  rw [confFn_loadBit E k c b d hm stored, decide_eq_true hp, Bool.true_and, keystream_loadBit E k c b d generated]

/-- Settles O16: the low-order bits of the last byte are the stream bits from L on. -/
theorem confZeroTail : Obligations.ConfZeroTail := by
  intro E k c b d m L hm
  have length := confFn_length E k c b d hm
  refine ⟨length, fun partialByte => ?_⟩
  have last : 8 * (nbytes L - 1) = L - L % 8 ∧ 0 < nbytes L := by
    simp only [nbytes, ceilDiv]
    omega
  have byte := List.getElem?_eq_getElem (show nbytes L - 1 < (confFn E k c b d m L).length by omega)
  refine ⟨_, byte, fun i hi => ?_⟩
  have outside : ¬ 8 * (nbytes L - 1) + (7 - i) < L := by omega
  rw [← loadBit_eq_getLsbD byte (by omega), confFn_loadBit E k c b d hm (by omega), decide_eq_false outside,
    Bool.false_and]

/-- Settles O17: an output bit below L is a function of the message bit there, and the others are zero. -/
theorem confIgnoresDontCareBits : Obligations.ConfIgnoresDontCareBits := by
  intro E k c b d m m' L hm hm' agree
  have length := confFn_length E k c b d hm
  refine eq_of_loadBit_eq (length.trans (confFn_length E k c b d hm').symm) fun p hp => ?_
  rw [length] at hp
  rw [confFn_loadBit E k c b d hm hp, confFn_loadBit E k c b d hm' hp]
  by_cases inside : p < L
  · rw [agree p inside]
  · rw [decide_eq_false inside, Bool.false_and, Bool.false_and]

/-- Settles O18: CONF twice is `pack`, which is the identity exactly on zero don't-care bits. -/
theorem confIsAnInvolution : Obligations.ConfIsAnInvolution := by
  intro E k c b d m L _ length
  rw [confFn_twice E k c b d length.ge]
  exact ⟨rfl, pack_eq_self_iff length⟩

/-- R167: a job that passes its checks fits the buffers. -/
theorem CoreState.Checks.nbytes_le {c : CoreState} (h : c.Checks) : nbytes c.bits ≤ Config.bufBytes :=
  nbytes_le_iff.mpr h.ceiling

/-- R134: past the checks, CONF is `perform CONF` and the completion's flags. -/
theorem exec_conf_of_perform {s : State} {d : CoreState} (checks : s.core.Checks) (h : performConf s.core = .next d) :
    exec .conf s = .next (s.withCore d.complete) :=
  runJob_eq_next.mpr (.inr ⟨check_eq_none.mpr checks, d, h, rfl⟩)

/-- R160, R167: OUT after writing the result over it, below nbytes(L) and from there on. -/
theorem confFn_written_read (E : Bits128 → Bits128 → Bits128) (k : Bits128) (c : Word) (b : BitVec 5) (d : BitVec 1)
    {m : List Byte} {L : Nat} (hm : nbytes L ≤ m.length) (out : Memory) (j : Nat) :
    Memory.read (Memory.writeBytes out 0 (confFn E k c b d m L)) j =
      if j < nbytes L then (confFn E k c b d m L)[j]? else Memory.read out j := by
  simp only [Memory.read_writeBytes, confFn_length E k c b d hm, Nat.zero_le, true_and, Nat.zero_add, Nat.sub_zero]

/-- Settles O14: OUT is the result written over the old OUT, and each of its bytes is `confFn`'s. -/
theorem confOutputBytes : Obligations.ConfOutputBytes := by
  intro s checks written
  obtain ⟨m, hm⟩ := Option.isSome_iff_exists.mp (CoreState.message_isSome.mpr written)
  obtain ⟨length, bytes⟩ := CoreState.message_eq_some.mp hm
  have performed := performConf_eq_next.mpr ⟨m, hm, rfl⟩
  refine ⟨checks.nbytes_le, _, exec_conf_of_perform checks performed, rfl, fun j hj => ?above, fun empty => ?empty,
    fun j hj => ?below⟩
  case above => exact (confFn_written_read _ _ _ _ _ length.ge _ j).trans (if_neg (Nat.not_lt.mpr hj))
  case empty =>
    have nothing :
        confFn Config.blockCipher s.core.key s.core.count s.core.bearer5 s.core.direction m s.core.bits = [] :=
      List.length_eq_zero_iff.mp (by rw [confFn_length _ _ _ _ _ length.ge, empty, nbytes_zero])
    exact congrArg (Memory.writeBytes s.core.outBuf 0) nothing
  case below =>
    have byte := List.getElem?_eq_getElem (show j < m.length by omega)
    refine ⟨m[j], (bytes j hj).trans byte, ?_⟩
    exact ((confFn_written_read _ _ _ _ _ length.ge _ j).trans (if_pos hj)).trans (confFn_getElem? _ _ _ _ _ hj byte)

end Sys2Proof.Machine
end

section
/-! PROOFS. The integrity function: the authentication input bit by bit, its blocks, and the tag as the chain over them
(42 sections 1 to 3). -/

namespace Sys2Proof.Machine

/-- R238: the one-bit shift doubles the number and drops the carry. -/
theorem shl1_toNat (x : Bits128) : (shl1 x).toNat = 2 * x.toNat % 2 ^ 128 := by
  rw [shl1, BitVec.toNat_shiftLeft, Nat.shiftLeft_eq, pow_one, Nat.mul_comm]

/-- Settles O23: each branch of `dbl` is the shift, with the constant in the branch of the set top bit. -/
theorem doublingRule : Obligations.DoublingRule := by
  intro x
  unfold dbl
  split
  next => rw [BitVec.toNat_xor, shl1_toNat, BitVec.toNat_ofNat]
  next => exact shl1_toNat x

/-- R15: value bit `L - 1 - p` of the message is its stream bit `p`. -/
theorem bitstr_getLsbD (m : List Byte) {L i : Nat} (hi : i < L) : (bitstr m L).getLsbD i = loadBit m (L - 1 - i) := by
  rw [bitstr, loadBits_getLsbD, decide_eq_true hi, Bool.true_and, Nat.zero_add]

/-- R234: only the first L stream bits enter the message's value. -/
theorem bitstr_congr {m m' : List Byte} {L : Nat} (agree : ∀ p, p < L → loadBit m p = loadBit m' p) :
    bitstr m L = bitstr m' L := by
  refine BitVec.eq_of_getLsbD_eq fun i hi => ?_
  rw [bitstr_getLsbD m hi, bitstr_getLsbD m' hi]
  exact agree _ (by omega)

/-- Settles O20: the message's L bits lie below the header's 64 in the concatenation. -/
theorem authenticationInputBits : Obligations.AuthenticationInputBits := by
  intro c b d m L p hp
  rw [authInput, BitVec.getLsbD_append]
  by_cases inHeader : p < 64
  · rw [if_pos inHeader, if_neg (by omega), show 64 + L - 1 - p - L = 63 - p by omega]
  · have inMessage : 64 + L - 1 - p < L := by omega
    rw [if_neg inHeader, if_pos inMessage, bitstr_getLsbD m inMessage,
      show L - 1 - (64 + L - 1 - p) = p - 64 by omega]

section
variable {L : Nat} (M : BitVec (64 + L))

theorem fullBlocks_length : (fullBlocks M).length = blockCount L - 1 := by
  rw [fullBlocks, List.length_map, List.length_range]

theorem fullBlocks_getElem? {j : Nat} (hj : j < blockCount L - 1) :
    (fullBlocks M)[j]? = some (streamBits M (128 * j) 128) := by
  rw [fullBlocks, List.getElem?_map, List.getElem?_range hj, Option.map_some]

end

/-- R15: a slice of a stream keeps the stream's bits in their order. -/
theorem streamBits_streamBit {N off w q : Nat} (x : BitVec N) (inside : off + w ≤ N) (hq : q < w) :
    (streamBits x off w).getLsbD (w - 1 - q) = x.getLsbD (N - 1 - (off + q)) := by
  rw [streamBits_getLsbD, decide_eq_true (by omega), Bool.true_and,
    show N - off - w + (w - 1 - q) = N - 1 - (off + q) by omega]

/-- Settles O21: the counts are those of `lastWidth_bounds`, and block `j` is the slice from stream bit `128 j` on,
which ends before the last block begins. -/
theorem blockSplit : Obligations.BlockSplit := by
  intro L
  obtain ⟨nonempty, low, high, total⟩ := lastWidth_bounds L
  have oneBlock : blockCount L = 1 → 64 ≤ lastWidth L := by omega
  refine ⟨rfl, nonempty, low, high, oneBlock, total, fun M => ⟨fullBlocks_length M, fun j hj => ?_⟩⟩
  have inside : 128 * j + 128 ≤ 64 + L := by omega
  exact ⟨_, fullBlocks_getElem? M hj, fun q hq => streamBits_streamBit M inside hq⟩

/-- R195: the last block is full exactly when the blocks come out even. -/
theorem lastWidth_full_iff (L : Nat) : lastWidth L = 128 ↔ (64 + L) % 128 = 0 := by
  obtain ⟨nonempty, low, high, total⟩ := lastWidth_bounds L
  omega

/-- R196: the two ways to finish the last block. -/
theorem lastBlock_eq_some {K : Bits128 × Bits128} {w : Nat} {x : BitVec w} {B : Bits128} :
    lastBlock K x = some B ↔
      (w = 128 → B = x.setWidth 128 ^^^ K.1) ∧ (w ≠ 128 → (pad10star x).map (· ^^^ K.2) = some B) := by
  unfold lastBlock
  split
  next full => simp only [full, Option.some.injEq, true_implies, ne_eq, not_true, false_implies, and_true, eq_comm]
  next short => simp only [short, false_implies, ne_eq, not_false_eq_true, true_implies, true_and]

/-- R197: one more block is one more encryption. -/
theorem cbcMac_concat (E : Bits128 → Bits128 → Bits128) (k : Bits128) (bs : List Bits128) (B : Bits128) :
    cbcMac E k (bs ++ [B]) = E k (cbcMac E k bs ^^^ B) := by
  rw [cbcMac, List.foldl_concat, cbcMac]

section
variable (E : Bits128 → Bits128 → Bits128) (k : Bits128) (c : Word) (b : BitVec 5) (d : BitVec 1)

/-- R197, R198: with the last block finished as `B`, the tag is the top of the cipher's last output. -/
theorem integFn_of_lastBlock {m : List Byte} {L : Nat} {B : Bits128}
    (finished : lastBlock (subkeys E k)
      (streamBits (authInput c b d m L) (128 * (blockCount L - 1)) (lastWidth L)) = some B) :
    integFn E k c b d m L =
      some ((E k (cbcMac E k (fullBlocks (authInput c b d m L)) ^^^ B)).extractLsb' 96 32) := by
  simp only [integFn, finished, Option.map_some, cbcMac_concat]

/-- R201: the message enters through its first L stream bits only. -/
theorem integFn_congr {m m' : List Byte} {L : Nat} (agree : ∀ p, p < L → loadBit m p = loadBit m' p) :
    integFn E k c b d m L = integFn E k c b d m' L := by
  have input : authInput c b d m L = authInput c b d m' L := congrArg (header c b d ++ ·) (bitstr_congr agree)
  rw [integFn, input, integFn]

end

/-- Settles O24: the last block, at most 128 bits wide, is finished under K1 or K2, and the chain ends with it. -/
theorem tagFromTheChain : Obligations.TagFromTheChain := by
  intro E k c b d m L M C last
  obtain ⟨_, _, high, _⟩ := lastWidth_bounds L
  obtain ⟨B, finished⟩ := Option.isSome_iff_exists.mp (lastBlock_isSome (subkeys E k) last high)
  obtain ⟨underK1, underK2⟩ := lastBlock_eq_some.mp finished
  have full := lastWidth_full_iff L
  exact ⟨full, B, integFn_of_lastBlock E k c b d finished, fun even => underK1 (full.mpr even),
    fun uneven => underK2 (mt full.mp uneven)⟩

/-- Settles O25: INTEG always has a tag, and it is one tag for messages with the same first L bits. -/
theorem tagDependsOnMessageBitsOnly : Obligations.TagDependsOnMessageBitsOnly := by
  intro E k c b d m m' L agree
  obtain ⟨tag, ht⟩ := Option.isSome_iff_exists.mp (integFn_isSome E k c b d m L)
  exact ⟨tag, ht, (integFn_congr E k c b d agree).symm.trans ht⟩

end Sys2Proof.Machine
end

section
/-! PROOFS. The bit-buffer unit: the masks of the last byte, `store_bits` stream bit by stream bit, and the padding of a
short block (43 sections 3 to 5). -/

namespace Sys2Proof.Machine

/-- R233: the mask of the last byte depends on `L mod 8` only. -/
theorem tailmask_mul_add (L r : Nat) : tailmask (8 * L + r) = tailmask r := by
  simp only [tailmask, Nat.mul_add_mod]

theorem maskbyte_of_lt {j L : Nat} (hj : j < nbytes L - 1) : maskbyte j L = 0xFF#8 := if_pos hj

theorem maskbyte_last {j L : Nat} (hj : j + 1 = nbytes L) : maskbyte j L = tailmask L := if_neg (by omega)

/-- Settles O31: the table is the masks of 0 to 7 bits. -/
theorem tailMaskTable : Obligations.TailMaskTable := by
  intro L
  have table := tailmask_mul_add L
  exact ⟨fun _ => table 0, table 1, table 2, table 3, table 4, table 5, table 6, table 7,
    fun j => ⟨maskbyte_of_lt, maskbyte_last⟩⟩

/-- Settles O32: `pack` byte by byte, and bit by bit. -/
theorem packKeepsTheFirstBits : Obligations.PackKeepsTheFirstBits := by
  intro a L ha
  refine ⟨by rw [pack_length, Nat.min_eq_left ha], fun j x hj hx => ?_, fun p hp => pack_loadBit a hp⟩
  rw [pack_getElem?, if_pos hj, hx, Option.map_some]

/-- Settles O33: `xor_masked` byte by byte, and twice. -/
theorem maskedXorRule : Obligations.MaskedXorRule := by
  intro a b L ha hb
  exact ⟨xorMasked_length_eq ha hb, fun j x y hj hx hy => xorMasked_getElem? hj hx hy, xorMasked_twice ha hb⟩

/-- A byte with bit `k` set or cleared: what `store_bits` does to the byte of one bit (R236). -/
def setBit (k : Nat) (b : Bool) (x : Byte) : Byte := if b then x ||| (1#8 <<< k) else x &&& ~~~(1#8 <<< k)

theorem storeBit_eq_modify (buf : List Byte) (p : Nat) (b : Bool) :
    storeBit buf p b = buf.modify (p / 8) (setBit (7 - p % 8) b) := rfl

theorem setBit_getLsbD (x : Byte) (b : Bool) {k i : Nat} (hi : i < 8) :
    (setBit k b x).getLsbD i = if i = k then b else x.getLsbD i := by
  have one : (1#8 <<< k).getLsbD i = decide (i = k) := by
    rw [← BitVec.twoPow_eq, BitVec.getLsbD_twoPow, ← Bool.decide_and, decide_eq_decide]
    omega
  cases b
  case true =>
    rw [setBit, if_pos rfl, BitVec.getLsbD_or, one]
    by_cases same : i = k <;> simp [same]
  case false =>
    rw [setBit, if_neg Bool.false_ne_true, BitVec.getLsbD_and, BitVec.getLsbD_not, one, decide_eq_true hi]
    by_cases same : i = k <;> simp [same]

@[simp] theorem storeBit_length (buf : List Byte) (p : Nat) (b : Bool) : (storeBit buf p b).length = buf.length :=
  List.length_modify ..

/-- R236: one stored bit changes no other bit. -/
theorem storeBit_loadBit {buf : List Byte} {p : Nat} (hp : p < 8 * buf.length) (b : Bool) (q : Nat) :
    loadBit (storeBit buf p b) q = if q = p then b else loadBit buf q := by
  rw [storeBit_eq_modify]
  by_cases byte : p / 8 = q / 8
  · have hx := List.getElem?_eq_getElem (show q / 8 < buf.length by omega)
    have stored : (buf.modify (p / 8) (setBit (7 - p % 8) b))[q / 8]? = some (setBit (7 - p % 8) b buf[q / 8]) := by
      rw [byte, List.getElem?_modify_eq, hx, Option.map_eq_map, Option.map_some]
    have samePlace : 7 - q % 8 = 7 - p % 8 ↔ q = p := by omega
    simp only [loadBit_of_getElem? stored, loadBit_of_getElem? hx, setBit_getLsbD _ b (show 7 - q % 8 < 8 by omega),
      samePlace]
  · rw [if_neg (by rintro rfl; exact byte rfl), loadBit, loadBit, List.getD_eq_getElem?_getD,
      List.getElem?_modify_ne _ _ byte, List.getD_eq_getElem?_getD]

section
variable (buf : List Byte) (off : Nat) {w : Nat} (v : BitVec w)

theorem storeBitsUpTo_length (n : Nat) : (storeBitsUpTo buf off v n).length = buf.length := by
  induction n with
  | zero => rfl
  | succ n ih => rw [storeBitsUpTo, storeBit_length, ih]

/-- R236: after `n` stored bits the stream has them from `off` on, and is the old one elsewhere. -/
theorem storeBitsUpTo_loadBit {n : Nat} (fits : off + n ≤ 8 * buf.length) (p : Nat) :
    loadBit (storeBitsUpTo buf off v n) p =
      if off ≤ p ∧ p < off + n then v.getLsbD (w - 1 - (p - off)) else loadBit buf p := by
  induction n with
  | zero => rw [storeBitsUpTo, if_neg (by omega)]
  | succ n ih =>
    have here : off + n < 8 * (storeBitsUpTo buf off v n).length := by rw [storeBitsUpTo_length]; omega
    rw [storeBitsUpTo, storeBit_loadBit here, ih (by omega)]
    by_cases last : p = off + n
    · rw [if_pos last, if_pos (by omega), last, Nat.add_sub_cancel_left]
    · have range : (off ≤ p ∧ p < off + n) ↔ (off ≤ p ∧ p < off + (n + 1)) := by omega
      simp only [if_neg last, range]

variable (fits : off + w ≤ 8 * buf.length)
include fits

theorem storeBits_loadBit_inside {q : Nat} (hq : q < w) :
    loadBit (storeBits buf off v) (off + q) = v.getLsbD (w - 1 - q) := by
  rw [storeBits, storeBitsUpTo_loadBit buf off v fits, if_pos (by omega), Nat.add_sub_cancel_left]

theorem storeBits_loadBit_outside {p : Nat} (hp : p < off ∨ off + w ≤ p) :
    loadBit (storeBits buf off v) p = loadBit buf p := by
  rw [storeBits, storeBitsUpTo_loadBit buf off v fits, if_neg (by omega)]

/-- R236: what `store_bits` wrote, `load_bits` of the same place reads. -/
theorem loadBits_storeBits : loadBits (storeBits buf off v) off w = v := by
  refine BitVec.eq_of_getLsbD_eq fun i hi => ?_
  rw [loadBits_getLsbD, decide_eq_true hi, Bool.true_and, storeBits_loadBit_inside buf off v fits (by omega),
    show w - 1 - (w - 1 - i) = i by omega]

end

/-- Settles O29: the stored bits, the others, and the value read back; a value of no bits stores none. -/
theorem storedBitsLoadBack : Obligations.StoredBitsLoadBack := by
  intro buf off w v fits
  exact ⟨storeBitsUpTo_length buf off v w, fun q hq => storeBits_loadBit_inside buf off v fits hq,
    fun p _ outside => storeBits_loadBit_outside buf off v fits outside, loadBits_storeBits buf off v fits,
    by rintro rfl; rfl⟩

/-- R239: a padded block from its most significant bit on: the bits of `x`, a one, and zeros. -/
theorem pad10star_streamBit {v p : Nat} {x : BitVec v} {y : Bits128} (hv : v ≤ 127) (padded : pad10star x = some y)
    (hp : p < 128) : y.getLsbD (127 - p) = if p < v then x.getLsbD (v - 1 - p) else decide (p = v) := by
  rw [pad10star, if_pos (by simpa only [padWf, decide_eq_true_eq] using hv), Option.some.injEq] at padded
  rw [← padded, BitVec.getLsbD_setWidth, decide_eq_true (by omega), Bool.true_and, BitVec.getLsbD_append]
  rcases Nat.lt_trichotomy p v with before | rfl | beyond
  case inl =>
    rw [if_neg (by omega), BitVec.getLsbD_append, if_neg (by omega), if_pos before,
      show 127 - p - (127 - v) - 1 = v - 1 - p by omega]
  case inr.inl =>
    rw [if_neg (by omega), BitVec.getLsbD_append, if_pos (by omega), Nat.sub_self, if_neg (by omega),
      decide_eq_true rfl]
    rfl
  case inr.inr => rw [if_pos (by omega), BitVec.getLsbD_zero, if_neg (by omega), decide_eq_false (by omega)]

/-- R239: the equivalent form: the block with all bits after the first `v` cleared and the next one set. -/
def maskedPad (v : Nat) (blk : Bits128) : Bits128 :=
  (blk &&& ~~~(BitVec.ofNat 128 (2 ^ (128 - v) - 1))) ||| BitVec.ofNat 128 (2 ^ (127 - v))

theorem maskedPad_streamBit {v p : Nat} (hv : v ≤ 127) (blk : Bits128) (hp : p < 128) :
    (maskedPad v blk).getLsbD (127 - p) = if p < v then blk.getLsbD (127 - p) else decide (p = v) := by
  have low : (BitVec.ofNat 128 (2 ^ (128 - v) - 1)).getLsbD (127 - p) = decide (v ≤ p) := by
    rw [BitVec.getLsbD_ofNat, Nat.testBit_two_pow_sub_one, ← Bool.decide_and, decide_eq_decide]
    omega
  have one : (BitVec.ofNat 128 (2 ^ (127 - v))).getLsbD (127 - p) = decide (p = v) := by
    rw [BitVec.getLsbD_ofNat, Nat.testBit_two_pow, ← Bool.decide_and, decide_eq_decide]
    omega
  rw [maskedPad, BitVec.getLsbD_or, BitVec.getLsbD_and, BitVec.getLsbD_not, low, one, decide_eq_true (by omega)]
  by_cases before : p < v
  · simp [before, Nat.not_le.mpr before, before.ne]
  · simp [before, Nat.not_lt.mp before]

/-- R239: padding the first `v` bits of a block is masking the block: the two agree in every stream bit. -/
theorem pad10star_streamBits {v : Nat} (hv : v ≤ 127) (blk : Bits128) :
    pad10star (streamBits blk 0 v) = some (maskedPad v blk) := by
  obtain ⟨y, padded⟩ := Option.isSome_iff_exists.mp (pad10star_isSome (streamBits blk 0 v) hv)
  refine padded.trans (congrArg some (BitVec.eq_of_getLsbD_eq fun i hi => ?_))
  obtain ⟨p, hp, rfl⟩ : ∃ p, p < 128 ∧ i = 127 - p := ⟨127 - i, by omega, by omega⟩
  rw [pad10star_streamBit hv padded hp, maskedPad_streamBit hv blk hp]
  by_cases before : p < v
  · rw [if_pos before, if_pos before, streamBits_streamBit blk (by omega) before, Nat.zero_add]
  · rw [if_neg before, if_neg before]

/-- Settles O35: the padded block bit by bit, its masked form, and no answer for a full block. -/
theorem paddingRule : Obligations.PaddingRule := by
  refine ⟨fun v x hv => ?bits, fun v blk hv => pad10star_streamBits hv blk, fun x => ?refused⟩
  case bits =>
    obtain ⟨y, padded⟩ := Option.isSome_iff_exists.mp (pad10star_isSome x hv)
    exact ⟨y, padded, fun p hp => pad10star_streamBit hv padded hp⟩
  case refused => exact if_neg (by decide)

end Sys2Proof.Machine
end

section
/-! PROOFS. The reset input (70 R300, R303). -/

namespace Sys2Proof.Machine

/-- R303: the reset turn reads nothing of the block, so it is taken in either phase and the job in flight is lost. -/
theorem step_of_reset_turn {s : State} (h : nextTurn s = .reset) :
    step s = .next (s.turnTaken.withCore CoreState.reset) := by
  rw [step_eq, h]
  rfl

/-- R36: no flag is set and no key quarter is supplied after reset, so STATUS is 0. -/
theorem CoreState.reset_statusWord : CoreState.reset.statusWord = 0#32 := by
  have notBusy : CoreState.reset.busy = false := CoreState.busy_eq_false.mpr CoreState.reset_phase
  apply BitVec.eq_of_toNat_eq
  simp [CoreState.statusWord_toNat, notBusy]

/-- R44: BEARER and DIRECTION are 0 after reset, so CTX is 0. -/
theorem CoreState.reset_ctxWord : CoreState.reset.ctxWord = 0#32 := by
  apply BitVec.eq_of_toNat_eq
  simp [CoreState.ctxWord_toNat]

/-- Settles O52: the core after the reset input is the core at power-on, and that one is fresh. -/
theorem resetState : Obligations.ResetState := by
  unfold Obligations.ResetState
  intro fresh
  have reset_fresh : fresh CoreState.reset :=
    ⟨CoreState.reset_phase, CoreState.reset_statusWord, CoreState.reset_done, CoreState.reset_err,
      CoreState.reset_errCode, CoreState.reset_keyv, CoreState.reset_count, CoreState.reset_ctxWord,
      CoreState.reset_bitLen, CoreState.reset_inLen, CoreState.reset_tag, CoreState.reset_key,
      Memory.read_nil, Memory.read_nil⟩
  exact ⟨reset_fresh, fun s turn => ⟨s.turnTaken.withCore CoreState.reset, step_of_reset_turn turn, reset_fresh,
    State.withCore_host .., State.withCore_schedule ..⟩⟩

end Sys2Proof.Machine
end

section
/-! PROOFS. The decoder and the encoder agree (30 section 1), and the invariant holds at reset and after every step. -/

namespace Sys2Proof.Machine

/-- R100: the fields OP and MBZ make up the whole word. -/
theorem mbz_append_op (w : Word) : cmdMbz w ++ cmdOp w = w := by
  apply BitVec.eq_of_toNat_eq
  have hw := w.isLt
  rw [append_toNat, cmdMbz, cmdOp, extract_toNat, extract_toNat]
  omega

theorem mbz_encode (i : Instr) : cmdMbz (encode i) = 0#24 := by cases i <;> decide

theorem op_encode (i : Instr) : cmdOp (encode i) = opcode i := by cases i <;> decide

/-- R101: a command's word is the one with MBZ zero and the command's OP. -/
theorem eq_encode_iff {w : Word} {i : Instr} : w = encode i ↔ cmdMbz w = 0#24 ∧ cmdOp w = opcode i := by
  constructor
  · rintro rfl
    exact ⟨mbz_encode i, op_encode i⟩
  · rintro ⟨mbz, op⟩
    rw [← mbz_append_op w, mbz, op, encode]

/-- R102, R103: what the decoder takes for a command. -/
theorem decode_eq_instr_iff {w : Word} {i : Instr} :
    decode w = .instr i ↔ cmdMbz w = 0#24 ∧ cmdOp w = opcode i := by
  constructor
  · intro h
    have mbz : cmdMbz w = 0#24 := by
      by_contra nonzero
      cases (decode_of_mbz_ne_zero nonzero).symm.trans h
    rw [decode, if_neg (not_not_intro mbz)] at h
    split at h
    next conf => cases h; exact ⟨mbz, conf⟩
    next =>
      split at h
      next integ => cases h; exact ⟨mbz, integ⟩
      next => cases h
  · intro fields
    rw [eq_encode_iff.mpr fields]
    cases i with
    | conf | integ => rfl

/-- Settles O1: both sides say that MBZ is zero and OP is the command's. -/
theorem decodeInvertsEncode : Obligations.DecodeInvertsEncode :=
  fun _ _ => decode_eq_instr_iff.trans eq_encode_iff.symm

/-- R102: a word that is no command's decodes to ILLEGAL. -/
theorem decode_illegal_of_ne_encode {w : Word} (h : ∀ i, w ≠ encode i) : ∃ why, decode w = .illegal why := by
  cases hd : decode w with
  | instr i => exact absurd ((decodeInvertsEncode w i).mp hd) (h i)
  | illegal why => exact ⟨why, rfl⟩

/-- R101: the two command words in full. -/
theorem ne_encode_of_ne_words {w : Word} (notConf : w ≠ 0x00000001#32) (notInteg : w ≠ 0x00000002#32) (i : Instr) :
    w ≠ encode i := by
  cases i with
  | conf => exact notConf
  | integ => exact notInteg

/-- Settles O2: the words of the two commands are their encodings, every other word ends in the error completion. -/
theorem decoderFollowsWordTable : Obligations.DecoderFollowsWordTable := by
  intro w
  have conf : w = 0x00000001#32 → decode w = .instr .conf := (decodeInvertsEncode w .conf).mpr
  have integ : w = 0x00000002#32 → decode w = .instr .integ := (decodeInvertsEncode w .integ).mpr
  have other (h1 : w ≠ 0x00000001#32) (h2 : w ≠ 0x00000002#32) : ∃ why, decode w = .illegal why :=
    decode_illegal_of_ne_encode (ne_encode_of_ne_words h1 h2)
  refine ⟨conf, integ, other, fun s hb hw => ?_⟩
  subst hw
  refine ⟨fun h => engineTurn_of_instr hb (conf h), fun h => engineTurn_of_instr hb (integ h), fun h1 h2 => ?_⟩
  obtain ⟨why, illegal⟩ := other h1 h2
  exact engineTurn_of_illegal hb illegal

/-- Settles O4: the words of both commands decode by O1, and each other word by the field that makes it illegal. -/
theorem tableWordsDecode : Obligations.TableWordsDecode := by
  have command (i : Instr) : decode (encode i) = .instr i := (decodeInvertsEncode _ i).mpr rfl
  have reserved {w : Word} (mbz : cmdMbz w = 0#24) (op : cmdOp w = 0#8 ∨ 3 ≤ (cmdOp w).toNat) :
      decode w = .illegal (.reservedOp (cmdOp w)) := decode_of_no_opcode mbz (opcode_ne_of_reserved op)
  exact ⟨command .conf, command .integ, rfl, rfl, reserved (by decide) (by decide), reserved (by decide) (by decide),
    reserved (by decide) (by decide), decode_of_mbz_ne_zero (by decide), decode_of_mbz_ne_zero (by decide)⟩

/-- Settles O54: each agent's turn keeps the invariant. -/
theorem stepKeepsTheInvariant : Obligations.StepKeepsTheInvariant := fun _ _ => step_inv

/-- Settles O53: the block at power-on meets the invariant. -/
theorem resetMeetsTheInvariant : Obligations.ResetMeetsTheInvariant := CoreState.reset_inv

end Sys2Proof.Machine
end

section
/-! PROOFS. The completion of a job: the check that fails first, the fault of an unwritten byte, the two commands'
results and their frames (40 section 2, 41 section 2, 42 section 4, 60 section 2). -/

namespace Sys2Proof.Machine

/-- What a command's engine does once the checks pass (R160, R190). -/
def perform : Instr → CoreState → Host.Outcome CoreState Fault Refusal
  | .conf => performConf
  | .integ => performInteg

/-- R134: both commands complete the same way, around their own engine. -/
theorem exec_eq_runJob (i : Instr) (s : State) : exec i s = runJob i (perform i) s := by
  cases i with
  | conf | integ => rfl

section
variable {i : Instr} {s : State}

/-- R134: past the checks, a command is its engine and the completion's flags. -/
theorem exec_of_perform {c : CoreState} (checks : s.core.Checks) (h : perform i s.core = .next c) :
    exec i s = .next (s.withCore c.complete) :=
  (exec_eq_runJob i s).trans (runJob_eq_next.mpr (.inr ⟨check_eq_none.mpr checks, c, h, rfl⟩))

theorem exec_of_perform_fault {r : Fault} (checks : s.core.Checks) (h : perform i s.core = .fault r) :
    exec i s = .fault r := by
  simp only [exec_eq_runJob, runJob, check_eq_none.mpr checks, h]

/-- Everything a command's completion can leave: an error completion, or its engine's block with the completion's
flags. -/
theorem exec_cases {t : State} (h : exec i s = .next t) :
    (∃ e, t = s.withCore (s.core.raiseError e)) ∨ ∃ c, perform i s.core = .next c ∧ t = s.withCore c.complete := by
  rw [exec_eq_runJob] at h
  rcases runJob_eq_next.mp h with ⟨e, -, ht⟩ | ⟨-, c, hc, ht⟩
  · exact .inl ⟨e, ht⟩
  · exact .inr ⟨c, hc, ht⟩

theorem perform_ne_refused (i : Instr) (c : CoreState) (r : Refusal) : perform i c ≠ .refused r := by
  cases i with
  | conf => exact performConf_ne_refused c r
  | integ => exact performInteg_ne_refused c r

/-- No command is ever refused (60 section 2). -/
theorem exec_ne_refused (i : Instr) (s : State) (r : Refusal) : exec i s ≠ .refused r := by
  rw [exec_eq_runJob, runJob]
  cases check (.instr i) s.core with
  | some e => exact nofun
  | none =>
    cases h : perform i s.core with
    | next c => exact nofun
    | fault e => exact nofun
    | refused e => exact absurd h (perform_ne_refused i s.core e)

/-- R302: either engine faults at an unwritten message byte. -/
theorem perform_of_unwritten {c : CoreState} (i : Instr) (h : ¬ c.InputWritten) :
    perform i c = .fault .unwrittenInput := by
  have unwritten := CoreState.message_eq_none.mpr h
  cases i with
  | conf => simp only [perform, performConf, unwritten]
  | integ => simp only [perform, performInteg, unwritten]

end

/-- Settles O9: the checks pass, and the engine faults. -/
theorem unwrittenInputFaultsTheJob : Obligations.UnwrittenInputFaultsTheJob :=
  fun _ i checks unwritten => exec_of_perform_fault checks (perform_of_unwritten i unwritten)

section
variable {c : CoreState} (written : c.InputWritten)
include written

/-- R105: a written message, byte by byte. -/
theorem CoreState.InputWritten.message : ∃ m, c.message = some m ∧ m.length = nbytes c.bits ∧
    ∀ j, j < nbytes c.bits → Memory.read c.inBuf j = m[j]? := by
  obtain ⟨m, hm⟩ := Option.isSome_iff_exists.mp (CoreState.message_isSome.mpr written)
  exact ⟨m, hm, CoreState.message_eq_some.mp hm⟩

/-- Over a written message either engine answers (R160, R190, U9). -/
theorem perform_of_written (i : Instr) : ∃ d, perform i c = .next d := by
  obtain ⟨m, hm, -⟩ := written.message
  cases i with
  | conf => exact ⟨_, performConf_eq_next.mpr ⟨m, hm, rfl⟩⟩
  | integ =>
    obtain ⟨tag, ht⟩ := Option.isSome_iff_exists.mp
      (integFn_isSome Config.blockCipher c.key c.count c.bearer5 c.direction m c.bits)
    exact ⟨_, performInteg_eq_next.mpr ⟨m, tag, hm, ht, rfl⟩⟩

end

/-- Settles O7: the message is the IN bytes, and the engine writes the result over OUT. -/
theorem confCompletes : Obligations.ConfCompletes := by
  intro s checks written
  obtain ⟨m, hm, length, bytes⟩ := written.message
  exact ⟨m, length, bytes, exec_of_perform (i := .conf) checks (performConf_eq_next.mpr ⟨m, hm, rfl⟩)⟩

/-- Settles O8: the message is the IN bytes, its tag exists, and the engine writes it to TAG. -/
theorem integCompletes : Obligations.IntegCompletes := by
  intro s checks written
  obtain ⟨m, hm, length, bytes⟩ := written.message
  obtain ⟨tag, ht⟩ := Option.isSome_iff_exists.mp
    (integFn_isSome Config.blockCipher s.core.key s.core.count s.core.bearer5 s.core.direction m s.core.bits)
  have performed := performInteg_eq_next.mpr ⟨m, tag, hm, ht, rfl⟩
  exact ⟨m, tag, length, bytes, ht, exec_of_perform (i := .integ) checks performed⟩

/-! The clauses of R277 in their order: each error is the answer when its condition holds and no earlier one does. -/

section
variable {i : Instr} {c : CoreState}

theorem check_eq_invalidKeyLength (key : c.keyv ≠ 0b1111#4) : check (.instr i) c = some .invalidKeyLength := by
  simp [check, CoreState.keyReady, key]

variable (key : c.keyv = 0b1111#4)
include key

theorem check_eq_invalidBearerRange (bearer : c.bearer.toNat > 31) :
    check (.instr i) c = some .invalidBearerRange := by
  simp [check, CoreState.keyReady, key, bearer]

variable (bearer : c.bearer.toNat ≤ 31)
include bearer

theorem check_eq_bitLengthMismatch (mismatch : c.bitLen.toNat > 8 * c.inLen.toNat) :
    check (.instr i) c = some .bitLengthMismatch := by
  simp [check, CoreState.keyReady, key, Nat.not_lt.mpr bearer, mismatch]

theorem check_eq_unsupportedMessageLength (mismatch : c.bitLen.toNat ≤ 8 * c.inLen.toNat)
    (ceiling : c.bitLen.toNat > Config.maxBitLen) : check (.instr i) c = some .unsupportedMessageLength := by
  simp [check, CoreState.keyReady, key, Nat.not_lt.mpr bearer, Nat.not_lt.mpr mismatch, ceiling]

end

/-- R134, R137: a job that passed its checks ends with DONE, if it ends in a next state. -/
theorem exec_done_of_checks {i : Instr} {s t : State} (checks : s.core.Checks) (h : exec i s = .next t) :
    t.core.done = true := by
  rw [exec_eq_runJob] at h
  rcases runJob_eq_next.mp h with ⟨e, failed, -⟩ | ⟨-, c, -, rfl⟩
  · cases (check_eq_none.mpr checks).symm.trans failed
  · exact c.complete_done

/-- Settles O10: the completion raises the error that `check` answers, and `check` answers the first that applies. -/
theorem firstFailingCheckIsReported : Obligations.FirstFailingCheckIsReported := by
  intro s hb bad
  refine ⟨fun why illegal => engineTurn_of_illegal hb illegal, fun i hd => ?_⟩
  have raised {e : JobError} (h : check (.instr i) s.core = some e) : engineTurn s = bad e.code :=
    engineTurn_of_error hb (hd ▸ h)
  refine ⟨fun key => raised (check_eq_invalidKeyLength key),
    fun key bearer => raised (check_eq_invalidBearerRange key bearer),
    fun key bearer mismatch => raised (check_eq_bitLengthMismatch key bearer mismatch),
    fun key bearer mismatch ceiling => raised (check_eq_unsupportedMessageLength key bearer mismatch ceiling),
    fun key bearer mismatch ceiling t ht => ?_⟩
  exact exec_done_of_checks ⟨key, bearer, mismatch, ceiling⟩ ((engineTurn_of_instr hb hd).symm.trans ht)

/-- Settles O12: past its checks a job over a written message is its engine's answer, and neither engine refuses. -/
theorem passingJobNeverFails : Obligations.PassingJobNeverFails := by
  refine ⟨fun s i hb hd checks written => ?_, fun s r h => ?_⟩
  · obtain ⟨c, hc⟩ := perform_of_written written i
    exact ⟨_, (engineTurn_of_instr hb hd).trans (exec_of_perform checks hc), c.complete_done, c.complete_phase⟩
  · cases hp : s.core.phase with
    | idle => simp only [engineTurn, hp, reduceCtorEq] at h
    | busy =>
      cases hd : decode s.core.jobCmd with
      | illegal why => cases (engineTurn_of_illegal hp hd).symm.trans h
      | instr i => exact exec_ne_refused i s r ((engineTurn_of_instr hp hd).symm.trans h)

/-- Settles O13: an error completion leaves everything but the flags, and CONF writes OUT below nbytes(L) only. -/
theorem confFrame : Obligations.ConfFrame := by
  intro s t h
  rcases exec_cases h with ⟨e, rfl⟩ | ⟨c, hc, rfl⟩
  · exact ⟨rfl, rfl, rfl, rfl, rfl, rfl, rfl, rfl, rfl, rfl, rfl, rfl, fun _ _ => rfl, fun _ _ => rfl, nofun⟩
  · obtain ⟨m, hm, rfl⟩ := performConf_eq_next.mp hc
    obtain ⟨length, -⟩ := CoreState.message_eq_some.mp hm
    refine ⟨rfl, rfl, rfl, rfl, rfl, rfl, rfl, rfl, rfl, rfl, rfl, rfl, fun a ha => ?_, nofun, fun _ => ⟨rfl, rfl⟩⟩
    exact (confFn_written_read _ _ _ _ _ length.ge _ a).trans (if_neg (Nat.not_lt.mpr ha))

/-- Settles O26: an error completion leaves everything but the flags, and INTEG writes TAG only. -/
theorem integFrame : Obligations.IntegFrame := by
  intro s t h
  rcases exec_cases h with ⟨e, rfl⟩ | ⟨c, hc, rfl⟩
  · exact ⟨rfl, rfl, rfl, rfl, rfl, rfl, rfl, rfl, rfl, rfl, rfl, rfl, fun _ => rfl, nofun⟩
  · obtain ⟨m, tag, hm, ht, rfl⟩ := performInteg_eq_next.mp hc
    exact ⟨rfl, rfl, rfl, rfl, rfl, rfl, rfl, rfl, rfl, rfl, rfl, rfl, nofun, fun _ => ⟨rfl, rfl, m, hm, ht⟩⟩

/-- Settles O6: the step is the engine's turn with the schedule entry used up, and that is the command's `exec`. -/
theorem stepRunsTheDecodedCommand : Obligations.StepRunsTheDecodedCommand := by
  intro s i turn hb hd _
  rw [step_eq, turn]
  exact engineTurn_of_instr (s := s.turnTaken) hb hd

end Sys2Proof.Machine
end

section
/-! PROOFS. The engines' functions and the bit-buffer unit: the cipher under one key, the last block, `load_bits` as a
number, the stored authentication input, and fields as numbers (42 section 3, 43 sections 2, 4 and 5). -/

namespace Sys2Proof.Machine

section
variable {E E' : Bits128 → Bits128 → Bits128} {k : Bits128} (agree : E k = E' k)
include agree

/-- R140: every call of the keystream is under the job's own key. -/
theorem keystream_congr (c : Word) (b : BitVec 5) (d : BitVec 1) (n : Nat) :
    keystream E k c b d n = keystream E' k c b d n := by
  simp only [keystream, agree]

theorem subkeys_congr : subkeys E k = subkeys E' k := by
  simp only [subkeys, agree]

/-- R140: every call of the chain is under the job's own key. -/
theorem cbcMac_congr (bs : List Bits128) : cbcMac E k bs = cbcMac E' k bs := by
  simp only [cbcMac, agree]

end

/-- Settles O19: CONF uses the cipher in the keystream only, INTEG in the subkeys and the chain only. -/
theorem onlyTheKeyEntersTheCipher : Obligations.OnlyTheKeyEntersTheCipher := by
  intro E E' k agree c b d m L
  have agree : E k = E' k := funext agree
  constructor
  · rw [confFn, confFn, keystream_congr agree]
  · simp only [integFn, subkeys_congr agree, cbcMac_congr agree]

/-- Settles O22: a full block takes K1; a shorter one is padded, and the XOR with K2 cancels. -/
theorem lastBlockRule : Obligations.LastBlockRule := by
  intro K1 K2 w x _ width
  obtain ⟨B, hB⟩ := Option.isSome_iff_exists.mp (lastBlock_isSome (K1, K2) x width)
  obtain ⟨full, short⟩ := lastBlock_eq_some.mp hB
  refine ⟨B, hB, full, fun partialBlock p hp => ?_⟩
  obtain ⟨y, padded, rfl⟩ := Option.map_eq_some_iff.mp (short partialBlock.ne)
  rw [BitVec.xor_assoc, BitVec.xor_self, BitVec.xor_zero]
  exact pad10star_streamBit (by omega) padded hp

/-- R232: one more bit doubles the number and adds the bit. -/
theorem loadBits_succ_toNat (buf : List Byte) (off w : Nat) :
    (loadBits buf off (w + 1)).toNat = 2 * (loadBits buf off w).toNat + if loadBit buf (off + w) then 1 else 0 := by
  rw [loadBits, BitVec.toNat_concat, Nat.mul_comm]
  cases loadBit buf (off + w) <;> rfl

/-- Moving each of `w` bits one place up doubles their weighted sum. -/
theorem weightedSum_succ (f : Nat → Nat) (w : Nat) :
    ((List.range w).map fun q => f q * 2 ^ (w + 1 - 1 - q)).sum =
      2 * ((List.range w).map fun q => f q * 2 ^ (w - 1 - q)).sum := by
  rw [← List.sum_map_mul_left]
  refine congrArg List.sum (List.map_congr_left fun q hq => ?_)
  have place : w + 1 - 1 - q = (w - 1 - q) + 1 := by
    have := List.mem_range.mp hq
    omega
  rw [place, pow_succ']
  ring

/-- Settles O28: one more bit doubles the number and the sum, and adds the bit with weight 1. -/
theorem loadBitsIsTheSumOfItsBits : Obligations.LoadBitsIsTheSumOfItsBits := by
  intro buf off w fits
  clear fits
  induction w with
  | zero => rfl
  | succ w ih =>
    rw [loadBits_succ_toNat, ih, List.sum_range_succ,
      weightedSum_succ (fun q => if loadBit buf (off + q) then 1 else 0), Nat.add_sub_cancel, Nat.sub_self,
      pow_zero, Nat.mul_one]

/-- 43 section 4: stream bit `p` of the buffer with the header stored at 0 and the message at 64. -/
theorem storedInput_loadBit (c : Word) (b : BitVec 5) (d : BitVec 1) (m : List Byte) {L p : Nat} (hp : p < 64 + L) :
    loadBit (storeBits (storeBits (List.replicate (nbytes (64 + L)) 0#8) 0 (header c b d)) 64 (bitstr m L)) p =
      if p < 64 then (header c b d).getLsbD (63 - p) else loadBit m (p - 64) := by
  have room : 64 + L ≤ 8 * (List.replicate (nbytes (64 + L)) 0#8).length := by
    rw [List.length_replicate]
    exact nbytes_le_iff.mp le_rfl
  have room' : 64 + L ≤
      8 * (storeBits (List.replicate (nbytes (64 + L)) 0#8) 0 (header c b d)).length := by
    rwa [storeBits, storeBitsUpTo_length]
  by_cases inHeader : p < 64
  · have stored :=
      storeBits_loadBit_inside (List.replicate (nbytes (64 + L)) 0#8) 0 (header c b d) (by omega) inHeader
    rw [Nat.zero_add] at stored
    rw [if_pos inHeader, storeBits_loadBit_outside _ 64 _ room' (.inl inHeader), stored]
  · obtain ⟨q, rfl⟩ := Nat.exists_eq_add_of_le (Nat.le_of_not_lt inHeader)
    rw [if_neg inHeader, storeBits_loadBit_inside _ 64 _ room' (by omega), bitstr_getLsbD m (by omega),
      show L - 1 - (L - 1 - q) = 64 + q - 64 by omega]

/-- Settles O30: the buffer and the authentication input have the same stream bits. -/
theorem authenticationInputIsStored : Obligations.AuthenticationInputIsStored := by
  intro c b d m L
  refine BitVec.eq_of_getLsbD_eq fun i hi => ?_
  have place : i = 64 + L - 1 - (64 + L - 1 - i) := by omega
  rw [loadBits_getLsbD, decide_eq_true hi, Bool.true_and, Nat.zero_add, storedInput_loadBit c b d m (by omega),
    ← authenticationInputBits c b d m L (64 + L - 1 - i) (by omega), ← place]

theorem bitField?_isSome {v w : Nat} : (bitField? v w).isSome = true ↔ v < 2 ^ w := by
  simp [bitField?, fieldWf]

/-- R237: a value of the field's own width is accepted as it is. -/
theorem bitField?_toNat {w : Nat} (x : BitVec w) : bitField? x.toNat w = some ⟨w, x⟩ := by
  simp [bitField?, fieldWf, x.isLt]

/-- A list of optional values is read through exactly when each of them is there. -/
theorem mapM_isSome {α β : Type} (f : α → Option β) (l : List α) :
    (l.mapM f).isSome = true ↔ ∀ a ∈ l, (f a).isSome = true := by
  induction l with
  | nil => simp
  | cons a l ih =>
    rw [List.mapM_cons, List.forall_mem_cons, ← ih]
    cases f a with
    | none => simp
    | some x =>
      cases l.mapM f with
      | none | some xs => simp

/-- R237, U10: the fields are concatenated exactly when each value fits its field. -/
theorem concatPairs?_isSome (ps : List (Nat × Nat)) :
    (concatPairs? ps).isSome = true ↔ ∀ p ∈ ps, p.1 < 2 ^ p.2 := by
  rw [concatPairs?, Option.isSome_map, mapM_isSome]
  exact forall₂_congr fun _ _ => bitField?_isSome

theorem concatPairs?_of_fields {ps : List (Nat × Nat)} {fs : List BitField}
    (fields : ps.mapM (fun p => bitField? p.1 p.2) = some fs) : concatPairs? ps = some (concatFields fs).toNat := by
  rw [concatPairs?, fields, Option.map_some]

/-- R111, R237: the header from its fields' numbers. -/
theorem concatPairs?_header (c : Word) (b : BitVec 5) (d : BitVec 1) :
    concatPairs? [(c.toNat, 32), (b.toNat, 5), (d.toNat, 1), (0, 26)] = some (header c b d).toNat := by
  have zero : bitField? 0 26 = some ⟨26, 0#26⟩ := bitField?_toNat 0#26
  exact concatPairs?_of_fields (by simp only [List.mapM_cons, List.mapM_nil, bitField?_toNat, zero]; rfl)

/-- R110, R237: the counter block from its fields' numbers. -/
theorem concatPairs?_counterBlock (c : Word) (b : BitVec 5) (d : BitVec 1) (i : BitVec 64) :
    concatPairs? [(c.toNat, 32), (b.toNat, 5), (d.toNat, 1), (0, 26), (i.toNat, 64)] =
      some (counterBlock c b d i).toNat := by
  have zero : bitField? 0 26 = some ⟨26, 0#26⟩ := bitField?_toNat 0#26
  exact concatPairs?_of_fields (by simp only [List.mapM_cons, List.mapM_nil, bitField?_toNat, zero]; rfl)

/-- Settles O34: the worked example is the header of COUNT 0x1C3, BEARER 0 and DIRECTION 1. -/
theorem fieldConcatenation : Obligations.FieldConcatenation := by
  refine ⟨concatFields_toNat, concatPairs?_isSome,
    fun c b d i => ⟨concatPairs?_header c b d, concatPairs?_counterBlock c b d i⟩, ?_⟩
  refine (concatPairs?_header 0x1C3#32 0#5 1#1).trans (congrArg some ?_)
  rw [header_toNat]
  rfl

end Sys2Proof.Machine
end

section
/-! PROOFS. The host bus: what a repeated access does, the OUT_BUF window, STATUS, and the key's absence from every
reply (10 sections 3 to 5, 20 section 3). -/

namespace Sys2Proof.Machine

section
variable {a j : Nat} (x b : Byte) (m : Memory)

theorem Memory.write_cons_before (h : j < a) : Memory.write ((a, x) :: m) j b = (j, b) :: (a, x) :: m := if_pos h

theorem Memory.write_cons_same : Memory.write ((a, x) :: m) a b = (a, b) :: m := by
  rw [Memory.write, if_neg (Nat.lt_irrefl a), if_pos rfl]

theorem Memory.write_cons_after (h : a < j) : Memory.write ((a, x) :: m) j b = (a, x) :: Memory.write m j b := by
  rw [Memory.write, if_neg (by omega), if_neg (by omega)]

end

/-- R75: a byte written twice is the byte written once. -/
theorem Memory.write_write_same (m : Memory) (j : Nat) (b : Byte) :
    Memory.write (Memory.write m j b) j b = Memory.write m j b := by
  induction m with
  | nil => exact Memory.write_cons_same b b []
  | cons cell m ih =>
    obtain ⟨a, x⟩ := cell
    rcases Nat.lt_trichotomy j a with below | rfl | above
    · rw [Memory.write_cons_before x b m below, Memory.write_cons_same]
    · rw [Memory.write_cons_same, Memory.write_cons_same]
    · rw [Memory.write_cons_after x b m above, Memory.write_cons_after x b _ above, ih]

/-- Writes of two bytes commute, in any list of cells: the lower one is inserted at or before the higher one. -/
theorem Memory.write_comm (m : Memory) {i j : Nat} (h : i < j) (x y : Byte) :
    Memory.write (Memory.write m i x) j y = Memory.write (Memory.write m j y) i x := by
  induction m with
  | nil => exact (Memory.write_cons_after x y [] h).trans (Memory.write_cons_before y x [] h).symm
  | cons cell m ih =>
    obtain ⟨a, z⟩ := cell
    rcases Nat.lt_trichotomy j a with jBelow | rfl | jAbove
    · rw [Memory.write_cons_before z x m (h.trans jBelow), Memory.write_cons_after x y _ h,
        Memory.write_cons_before z y m jBelow, Memory.write_cons_before y x _ h]
    · rw [Memory.write_cons_before z x m h, Memory.write_cons_after x y _ h, Memory.write_cons_same,
        Memory.write_cons_before y x m h]
    · rw [Memory.write_cons_after z y m jAbove]
      rcases Nat.lt_trichotomy i a with iBelow | rfl | iAbove
      · rw [Memory.write_cons_before z x m iBelow, Memory.write_cons_after x y _ h,
          Memory.write_cons_after z y m jAbove, Memory.write_cons_before z x _ iBelow]
      · rw [Memory.write_cons_same, Memory.write_cons_after x y m jAbove, Memory.write_cons_same]
      · rw [Memory.write_cons_after z x m iAbove, Memory.write_cons_after z y _ jAbove, ih,
          Memory.write_cons_after z x _ iAbove]

/-- A byte below a range can be written before it or after it. -/
theorem Memory.write_writeBytes_comm (m : Memory) {i start : Nat} (h : i < start) (x : Byte) (bs : List Byte) :
    Memory.write (Memory.writeBytes m start bs) i x = Memory.writeBytes (Memory.write m i x) start bs := by
  induction bs generalizing m start with
  | nil => rfl
  | cons b bs ih => rw [Memory.writeBytes, Memory.writeBytes, ih _ (by omega), Memory.write_comm m h]

/-- R75: bytes written twice are the bytes written once. -/
theorem Memory.writeBytes_writeBytes_same (m : Memory) (start : Nat) (bs : List Byte) :
    Memory.writeBytes (Memory.writeBytes m start bs) start bs = Memory.writeBytes m start bs := by
  induction bs generalizing m start with
  | nil => rfl
  | cons b bs ih =>
    rw [Memory.writeBytes, Memory.writeBytes, Memory.write_writeBytes_comm _ (Nat.lt_succ_self start),
      Memory.write_write_same, ih]

/-- R56: a key quarter written twice is the quarter written once. -/
theorem keyInsert_keyInsert_same (k : Bits128) (n : Fin 4) (v : Word) :
    keyInsert (keyInsert k n v) n v = keyInsert k n v := by
  refine BitVec.eq_of_getLsbD_eq fun i _ => ?_
  rw [keyInsert_getLsbD, keyInsert_getLsbD]
  split <;> rfl

theorem CoreState.writeKey_writeKey_same (n : Fin 4) (v : Word) (c : CoreState) :
    (c.writeKey n v).writeKey n v = c.writeKey n v := by
  simp only [CoreState.writeKey, keyInsert_keyInsert_same, BitVec.or_assoc, BitVec.or_self]

theorem CoreState.writeInWord_writeInWord_same (j : Nat) (v : Word) (c : CoreState) :
    (c.writeInWord j v).writeInWord j v = c.writeInWord j v := by
  simp only [CoreState.writeInWord, Memory.writeBytes_writeBytes_same]

/-- R75: the same write again changes no register and no buffer; CMD is the exception. -/
theorem writeCore_again {r : Region} {v : Word} {c d : CoreState} (notCmd : r ≠ .cmd)
    (h : writeCore r v c = some d) : writeCore r v d = some d := by
  cases r with
  | cmd => exact absurd rfl notCmd
  | key n => cases h; exact congrArg some (c.writeKey_writeKey_same n v)
  | inBuf j => cases h; exact congrArg some (c.writeInWord_writeInWord_same j v)
  | count | ctx | bitLen | inLen => cases h; rfl
  | status | tag | outBuf => cases h

/-- Only the write of CMD starts a job (R130). -/
theorem writeCore_phase {r : Region} {v : Word} {c d : CoreState} (notCmd : r ≠ .cmd)
    (h : writeCore r v c = some d) : d.phase = c.phase := by
  cases r with
  | cmd => exact absurd rfl notCmd
  | key | inBuf | count | ctx | bitLen | inLen => cases h; rfl
  | status | tag | outBuf => cases h

/-- Where each mapped word stands (R34): the map of the offsets, read the other way. -/
def Region.offset : Region → Nat
  | .cmd => 0x00
  | .status => 0x04
  | .count => 0x08
  | .ctx => 0x0C
  | .bitLen => 0x10
  | .inLen => 0x14
  | .tag => 0x18
  | .key n => 0x20 + 4 * n.val
  | .inBuf j => 0x100000 + 4 * j
  | .outBuf j => 0x200000 + 4 * j

theorem registerAt_offset {n : Nat} {r : Region} (h : registerAt n = some r) : n = r.offset := by
  simp only [registerAt] at h
  repeat' split at h
  all_goals cases h
  all_goals assumption

/-- R72, R74: only a word access to the offset of a mapped word reaches it. -/
theorem accessTarget_offset {off : Offset} {bytes : Nat} {r : Region} (h : accessTarget off bytes = some r) :
    bytes = 4 ∧ off.toNat = r.offset := by
  obtain ⟨⟨width, aligned⟩, mapped⟩ := Option.ite_none_right_eq_some.mp h
  refine ⟨width, ?_⟩
  simp only [mapOffset] at mapped
  split at mapped
  next inBuffer =>
    cases mapped
    simp only [Region.offset]
    omega
  next =>
    split at mapped
    next outBuffer =>
      cases mapped
      simp only [Region.offset]
      omega
    next => exact registerAt_offset mapped

/-- Settles O39: a read changes at most the number of the next BUSY draw, which enters TAG and OUT_BUF only; the second
of two equal writes finds what it stores. -/
theorem readsHaveNoSideEffect : Obligations.ReadsHaveNoSideEffect := by
  refine ⟨fun off bytes s => ?kept, fun off off' bytes bytes' s h => ?between, fun off v s notCmd => ?again⟩
  case kept =>
    rcases busRead_state off bytes s with same | ⟨drawn, busy⟩
    · rw [same]
      exact ⟨rfl, rfl, rfl, rfl, fun _ => rfl⟩
    · rw [drawn]
      exact ⟨rfl, rfl, rfl, rfl, fun idle => by cases busy.symm.trans idle⟩
  case between =>
    rcases busRead_state off' bytes' s with same | ⟨drawn, -⟩
    · rw [same]
    · rw [drawn, busRead_drawn h]
  case again =>
    rcases busWrite_state off 4 v s with same | ⟨r, c, idle, target, write, written⟩
    · rw [same, same]
    · have other : r ≠ .cmd := by
        rintro rfl
        exact notCmd (BitVec.eq_of_toNat_eq (accessTarget_offset target).right)
      have stored : writeCore r v (s.written c).core = some (s.written c).core := by
        rw [State.written_core]
        exact writeCore_again other write
      have stillIdle : (s.written c).core.phase = .idle := by
        rw [State.written_core, writeCore_phase other write, idle]
      rw [written, busWrite_idle target stored stillIdle, State.written_self]

/-- R58: a written OUT byte reads as its value. -/
theorem State.hostOutByte_of_read {s : State} {j : Nat} {y : Byte} (h : Memory.read s.core.outBuf j = some y) :
    s.hostOutByte j = y := by
  rw [State.hostOutByte, h, Option.getD_some]

section
variable {s : State} (hi : s.core.phase = .idle)
include hi

theorem readRegion_tag_idle : readRegion .tag s = (.data s.core.tag, s) :=
  if_neg (by simp [hi])

theorem readRegion_outBuf_idle (j : Nat) : readRegion (.outBuf j) s = (.data (wordAt s.hostOutByte j), s) :=
  if_neg (by simp [hi])

end

/-- Settles O45: TAG and the window word take no write, and in phase IDLE they read as what is stored. -/
theorem outputWindow : Obligations.OutputWindow := by
  intro s v
  refine ⟨fun hi => (busRead_of_target (r := .tag) rfl s).trans (readRegion_tag_idle hi),
    busWrite_ignored (r := .tag) rfl rfl, fun j hj => ?_⟩
  have target := accessTarget_outWord hj
  refine ⟨busWrite_ignored target rfl, fun hi => ?_⟩
  exact ⟨s.hostOutByte (4 * j), s.hostOutByte (4 * j + 1), s.hostOutByte (4 * j + 2), s.hostOutByte (4 * j + 3),
    (busRead_of_target target s).trans (readRegion_outBuf_idle hi j), fun _ => State.hostOutByte_of_read,
    fun _ => State.hostOutByte_of_read, fun _ => State.hostOutByte_of_read, fun _ => State.hostOutByte_of_read⟩

/-- R36, R41: KEYV stands at bits 11:8 of STATUS. -/
theorem CoreState.statusWord_keyv (c : CoreState) : c.statusWord.extractLsb' 8 4 = c.keyv := by
  apply BitVec.eq_of_toNat_eq
  have hf := c.flags_lt
  have hc := c.errCode.isLt
  have hk := c.keyv.isLt
  rw [extract_toNat, CoreState.statusWord_toNat]
  omega

/-- Settles O48: the fields of the word one by one, its value at reset, and STATUS as a word that takes no write. -/
theorem statusLayout : Obligations.StatusLayout := by
  refine ⟨fun c => ?_, CoreState.reset_statusWord, fun s v ok => ?_⟩
  · obtain ⟨bit0, bit1, bit2, bit3⟩ := c.statusWord_flags
    exact ⟨bit0, bit1, bit2, bit3, c.statusWord_errCode, c.statusWord_keyv, c.statusWord_reserved⟩
  · exact ⟨(busRead_of_target (r := .status) rfl s).trans (readRegion_status ok.code_legal),
      busWrite_ignored (r := .status) rfl rfl⟩

end Sys2Proof.Machine
end

section
/-! PROOFS. Two machines that differ in KEY and in the draw counters: what the host is told, and what it leaves (10
section 4). -/

namespace Sys2Proof.Machine

/-- `t` is `s` but for KEY, the schedule and the draw counters. -/
structure State.AgreesButKey (s t : State) : Prop where
  core : t.core = { s.core with key := t.core.key }
  host : t.host = s.host

/-- If `r` is a next state, so is `r'`, and the two states agree but for KEY. -/
def RunsAlike (r r' : Result) : Prop := ∀ t, r = .next t → ∃ t', r' = .next t' ∧ t.AgreesButKey t'

theorem RunsAlike.next {t t' : State} (h : t.AgreesButKey t') : RunsAlike (.next t) (.next t') := by
  rintro _ ⟨⟩
  exact ⟨t', rfl, h⟩

theorem RunsAlike.fault (e : Fault) (r : Result) : RunsAlike (.fault e) r := nofun

theorem RunsAlike.refused (e : Refusal) (r : Result) : RunsAlike (.refused e) r := nofun

/-- R77: a bus word is made of its four bytes. -/
theorem wordAt_congr {f g : Nat → Byte} {j : Nat} (h : ∀ i, i < 4 → f (4 * j + i) = g (4 * j + i)) :
    wordAt f j = wordAt g j := by
  have byte0 : f (4 * j) = g (4 * j) := h 0 (by decide)
  rw [wordAt, byte0, h 1 (by decide), h 2 (by decide), h 3 (by decide), wordAt]

/-- A window word is unspecified unless each of its bytes was written (R302). -/
theorem bytes_written {m : Memory} {j : Nat} (h : (Memory.readBytes m (4 * j) 4).isNone = false) {i : Nat}
    (hi : i < 4) : ∃ y, Memory.read m (4 * j + i) = some y :=
  Option.isSome_iff_exists.mp (Memory.readBytes_isSome.mp (by simpa using h) i hi)

/-- An accepted write stores the same next to any key, KEY itself apart (R56). -/
theorem writeCore_withKey (r : Region) (v : Word) (c : CoreState) (k : Bits128) :
    (writeCore r v c = none → writeCore r v { c with key := k } = none) ∧
    ∀ d, writeCore r v c = some d → ∃ k', writeCore r v { c with key := k } = some { d with key := k' } := by
  cases r with
  | cmd | count | ctx | bitLen | inLen | inBuf => exact ⟨nofun, fun d h => by cases h; exact ⟨k, rfl⟩⟩
  | key n => exact ⟨nofun, fun d h => by cases h; exact ⟨keyInsert k n v, rfl⟩⟩
  | status | tag | outBuf => exact ⟨fun _ => rfl, nofun⟩

namespace State.AgreesButKey
variable {s t : State} (h : s.AgreesButKey t)
include h

theorem phase : t.core.phase = s.core.phase := by rw [h.core]
theorem errCode : t.core.errCode = s.core.errCode := by rw [h.core]
theorem statusWord : t.core.statusWord = s.core.statusWord := by rw [h.core]; rfl
theorem count : t.core.count = s.core.count := by rw [h.core]
theorem ctxWord : t.core.ctxWord = s.core.ctxWord := by rw [h.core]; rfl
theorem bitLen : t.core.bitLen = s.core.bitLen := by rw [h.core]
theorem inLen : t.core.inLen = s.core.inLen := by rw [h.core]
theorem tag : t.core.tag = s.core.tag := by rw [h.core]
theorem inBuf : t.core.inBuf = s.core.inBuf := by rw [h.core]
theorem outBuf : t.core.outBuf = s.core.outBuf := by rw [h.core]

theorem reg (r : HostReg) : t.reg r = s.reg r := by rw [State.reg, State.reg, h.host]

theorem hostNext : s.hostNext.AgreesButKey t.hostNext :=
  ⟨h.core, by rw [State.hostNext_host, State.hostNext_host, h.host]⟩

theorem hostGoto (n : Nat) : (s.hostGoto n).AgreesButKey (t.hostGoto n) :=
  ⟨h.core, by rw [State.hostGoto_host, State.hostGoto_host, h.host]⟩

theorem setReg (r : HostReg) (v : Word) : (s.setReg r v).AgreesButKey (t.setReg r v) :=
  ⟨h.core, by rw [State.setReg_host, State.setReg_host, h.host]⟩

/-- A read whose value is specified is answered alike (R35, R55, R302). -/
theorem readRegion {r : Region} (specified : r.unspecified s = false) :
    (readRegion r t).1 = (Machine.readRegion r s).1 := by
  cases r with
  | cmd | key => rfl
  | status => simp only [Machine.readRegion, h.errCode, h.statusWord]
  | count => simp only [Machine.readRegion, h.count]
  | ctx => simp only [Machine.readRegion, h.ctxWord]
  | bitLen => simp only [Machine.readRegion, h.bitLen]
  | inLen => simp only [Machine.readRegion, h.inLen]
  | tag =>
    have idle : s.core.phase = .idle := CoreState.busy_eq_false.mp specified
    rw [readRegion_tag_idle idle, readRegion_tag_idle (h.phase.trans idle), h.tag]
  | inBuf j =>
    have word : wordAt t.hostInByte j = wordAt s.hostInByte j := wordAt_congr fun i hi => by
      obtain ⟨y, hy⟩ := bytes_written specified hi
      rw [State.hostInByte_of_read hy, State.hostInByte_of_read (h.inBuf ▸ hy)]
    simp only [Machine.readRegion, word]
  | outBuf j =>
    obtain ⟨notBusy, written⟩ := Bool.or_eq_false_iff.mp specified
    have idle : s.core.phase = .idle := CoreState.busy_eq_false.mp notBusy
    have word : wordAt t.hostOutByte j = wordAt s.hostOutByte j := wordAt_congr fun i hi => by
      obtain ⟨y, hy⟩ := bytes_written written hi
      rw [State.hostOutByte_of_read hy, State.hostOutByte_of_read (h.outBuf ▸ hy)]
    rw [readRegion_outBuf_idle idle, readRegion_outBuf_idle (h.phase.trans idle), word]

theorem busRead_reply {off : Offset} {bytes : Nat}
    (specified : ∀ r, accessTarget off bytes = some r → r.unspecified s = false) :
    (busRead off bytes t).1 = (busRead off bytes s).1 := by
  cases target : accessTarget off bytes with
  | none => simp only [busRead, target]
  | some r => rw [busRead_of_target target, busRead_of_target target, h.readRegion (specified r target)]

theorem busRead (off : Offset) (bytes : Nat) : (busRead off bytes s).2.AgreesButKey (Machine.busRead off bytes t).2 :=
  ⟨by rw [busRead_core, busRead_core, ← h.core], by rw [busRead_host, busRead_host, h.host]⟩

theorem writeRegion (r : Region) (v : Word) : (writeRegion r v s).AgreesButKey (Machine.writeRegion r v t) := by
  have busy : t.core.busy = s.core.busy := by rw [CoreState.busy, CoreState.busy, h.phase]
  obtain ⟨ignored, stored⟩ := writeCore_withKey r v s.core t.core.key
  rw [← h.core] at ignored stored
  rw [Machine.writeRegion, Machine.writeRegion, busy]
  split
  next => exact h
  next =>
    cases write : writeCore r v s.core with
    | none => rw [ignored write]; exact h
    | some d =>
      obtain ⟨k', again⟩ := stored d write
      rw [again]
      exact ⟨by simp only [State.written_core], by simp only [State.written_host, h.host]⟩

theorem hostWrite (off : Offset) (bytes : Nat) (v : Word) :
    RunsAlike (hostWrite off bytes v s) (Machine.hostWrite off bytes v t) := by
  cases target : accessTarget off bytes with
  | none =>
    simp only [Machine.hostWrite, busWrite, target]
    exact .fault _ _
  | some r =>
    simp only [Machine.hostWrite, busWrite, target]
    exact .next (h.writeRegion r v).hostNext

theorem hostRead {off : Offset} {bytes : Nat} {use : Word → State → Result}
    (reply : (Machine.busRead off bytes t).1 = (Machine.busRead off bytes s).1)
    (alike : ∀ v u u', u.AgreesButKey u' → RunsAlike (use v u) (use v u')) :
    RunsAlike (hostRead off bytes s use) (Machine.hostRead off bytes t use) := by
  intro u hu
  obtain ⟨v, data, used⟩ := hostRead_eq_next.mp hu
  obtain ⟨u', used', agrees⟩ := alike v _ _ (h.busRead off bytes) u used
  exact ⟨u', hostRead_eq_next.mpr ⟨v, reply.trans data, used'⟩, agrees⟩

/-- Every host operation whose read is answered alike leaves states that agree but for KEY. -/
theorem hostExec (o : HostOp)
    (reply : ∀ off bytes, hostReads o = some (off, bytes) →
      (Machine.busRead off bytes t).1 = (Machine.busRead off bytes s).1) :
    RunsAlike (hostExec o s) (Machine.hostExec o t) := by
  have store {dst : HostReg} (v : Word) (u u' : State) (h : u.AgreesButKey u') :
      RunsAlike (.next (u.setReg dst v).hostNext) (.next (u'.setReg dst v).hostNext) := .next (h.setReg dst v).hostNext
  cases o with
  | wr off imm => exact h.hostWrite off 4 imm
  | wrh off src =>
    simp only [Machine.hostExec, hostWrh, h.reg]
    exact h.hostWrite off 4 _
  | rd dst off => exact h.hostRead (reply off 4 rfl) store
  | and dst src imm =>
    simp only [Machine.hostExec, hostAnd, h.reg]
    exact store _ s t h
  | bnz src target =>
    simp only [Machine.hostExec, hostBnz, h.reg]
    split
    next => exact .next (h.hostGoto target)
    next => exact .next h.hostNext
  | expect off imm =>
    refine h.hostRead (reply off 4 rfl) fun v u u' agrees => ?_
    split
    next => exact .next agrees.hostNext
    next => exact .fault _ _
  | readAt dst addr bytes =>
    simp only [Machine.hostExec, hostReadAt]
    split
    next => exact .refused _ _
    next off window => exact h.hostRead (reply off bytes (by simp only [hostReads, window, Option.map_some])) store
  | writeAt addr bytes v =>
    simp only [Machine.hostExec, hostWriteAt]
    split
    next => exact .refused _ _
    next off window => exact h.hostWrite off bytes v

end State.AgreesButKey

/-- Settles O49: the two states agree but for KEY, specified reads are answered alike, and every operation of the host
whose read is specified keeps the agreement. -/
theorem keyCannotBeRead : Obligations.KeyCannotBeRead := by
  intro s k d e s'
  have agrees : s.AgreesButKey s' := ⟨rfl, rfl⟩
  refine ⟨fun off bytes specified => agrees.busRead_reply specified, fun t specified ht => ?_⟩
  have sameOp : s'.host.program[s'.host.next]? = s.host.program[s.host.next]? := rfl
  cases op : s.host.program[s.host.next]? with
  | none =>
    simp only [hostTurn, op] at ht
    cases ht
    exact ⟨s', by simp only [hostTurn, sameOp, op], rfl, rfl⟩
  | some o =>
    simp only [hostTurn, op] at ht
    obtain ⟨t', ht', after⟩ := agrees.hostExec o
      (fun off bytes reads => agrees.busRead_reply fun r => specified o off bytes r op reads) t ht
    refine ⟨t', by simp only [hostTurn, sameOp, op, ht'], after.host, ?_⟩
    rw [after.core]

end Sys2Proof.Machine
end

section
/-! PROOFS. The host's operations over the bus and without it (30 section 4, 60 section 2). -/

namespace Sys2Proof.Machine

section
variable {off : Offset} {bytes : Nat}

theorem hostWrite_of_target {r : Region} (h : accessTarget off bytes = some r) (v : Word) (s : State) :
    hostWrite off bytes v s = .next (busWrite off bytes v s).2.hostNext := by
  simp only [hostWrite, busWrite_of_target h]

theorem hostWrite_of_no_target (h : accessTarget off bytes = none) (v : Word) (s : State) :
    hostWrite off bytes v s = .fault (.busError off) := by
  simp only [hostWrite, (busError_of_no_target h s v).right]

theorem hostRead_of_no_target (h : accessTarget off bytes = none) (s : State) (use : Word → State → Result) :
    hostRead off bytes s use = .fault (.busError off) := by
  simp only [hostRead, (busError_of_no_target h s 0#32).left]

theorem hostRead_of_data {s : State} {v : Word} (h : (busRead off bytes s).1 = .data v)
    (use : Word → State → Result) : hostRead off bytes s use = use v (busRead off bytes s).2 := by
  unfold hostRead
  split
  next w t reply => rw [reply] at h; cases h; rw [reply]
  next reply => rw [reply] at h; cases h
  next reply => rw [reply] at h; cases h

end

/-- R70: a raw access at BASE plus an offset is the access at the offset. -/
theorem hostReadAt_base (dst : HostReg) (off : Offset) (bytes : Nat) (s : State) :
    hostReadAt dst (Config.base + off.toNat) bytes s =
      hostRead off bytes s fun v t => .next (t.setReg dst v).hostNext := by
  simp only [hostReadAt, offsetOf_eq_some.mpr rfl]

theorem hostWriteAt_base (off : Offset) (bytes : Nat) (v : Word) (s : State) :
    hostWriteAt (Config.base + off.toNat) bytes v s = hostWrite off bytes v s := by
  simp only [hostWriteAt, offsetOf_eq_some.mpr rfl]

/-- R81: what lies outside the window has no offset in the block. -/
theorem offsetOf_outside {addr : Nat} (h : addr < Config.base ∨ Config.base + 2 ^ 24 ≤ addr) :
    offsetOf addr = none :=
  if_neg (by omega)

theorem State.reg_setReg_same (s : State) (r : HostReg) (v : Word) : (s.setReg r v).reg r = v :=
  Vector.getElem_set_self r.isLt

theorem State.reg_setReg_other (s : State) {r q : HostReg} (v : Word) (h : q ≠ r) :
    (s.setReg r v).reg q = s.reg q :=
  Vector.getElem_set_ne r.isLt q.isLt fun same => h (Fin.ext same.symm)

/-- No read changes a host register. -/
theorem busRead_reg (off : Offset) (bytes : Nat) (s : State) (r : HostReg) :
    (busRead off bytes s).2.reg r = s.reg r := by
  simp only [State.reg, busRead_host]

/-- Settles O42: an access that goes nowhere is a bus error, and `hostRead` and `hostWrite` make it a fault, for the raw
accesses too. -/
theorem busErrorFaultsTheHost : Obligations.BusErrorFaultsTheHost := by
  intro s off
  refine ⟨fun unmapped => ?words, fun bytes unmapped h v => ?raw⟩
  case words =>
    exact ⟨fun v => hostWrite_of_no_target unmapped v s, fun h => hostWrite_of_no_target unmapped _ s,
      fun h => hostRead_of_no_target unmapped s _, fun v => hostRead_of_no_target unmapped s _⟩
  case raw =>
    exact ⟨(hostReadAt_base h off bytes s).trans (hostRead_of_no_target unmapped s _),
      (hostWriteAt_base off bytes v s).trans (hostWrite_of_no_target unmapped v s)⟩

/-- R115: what WR and WRH to a mapped word do. -/
theorem hostWrite_effect {off : Offset} (mapped : accessTarget off 4 ≠ none) (v : Word) (s : State) :
    ∃ t, hostWrite off 4 v s = .next t ∧ t.core = (busWrite off 4 v s).2.core ∧
      t.host = { s.host with next := s.host.next + 1 } := by
  obtain ⟨r, target⟩ := Option.ne_none_iff_exists'.mp mapped
  exact ⟨_, hostWrite_of_target target v s, rfl, by rw [State.hostNext_host, busWrite_host]⟩

/-- R115: a value goes into one host register, and the host goes on. -/
theorem setReg_effect (u : State) (dst : HostReg) (v : Word) :
    ∃ t, (.next (u.setReg dst v).hostNext : Result) = .next t ∧ t.core = u.core ∧ t.reg dst = v ∧
      (∀ r, r ≠ dst → t.reg r = u.reg r) ∧ t.host.next = u.host.next + 1 ∧ t.host.program = u.host.program :=
  ⟨_, rfl, rfl, u.reg_setReg_same dst v, fun _ other => u.reg_setReg_other v other, rfl, rfl⟩

/-- Settles O50: WR, WRH, RD and EXPECT by what the bus answers, AND and BNZ in the host's registers, and the raw
accesses by their offset or its absence. -/
theorem hostOperations : Obligations.HostOperations := by
  intro s off imm hd hs n
  refine ⟨fun mapped => hostWrite_effect mapped imm s, fun mapped => hostWrite_effect mapped _ s,
    fun v reply => ?rd, fun v reply => ?expect, setReg_effect s hd _, ?bnz, hostReadAt_base hd off 4 s,
    hostWriteAt_base off 4 imm s, fun addr bytes outside => ?outside⟩
  case rd =>
    obtain ⟨t, next, effect⟩ := setReg_effect (busRead off 4 s).2 hd v
    simp only [busRead_core, busRead_reg, busRead_host] at effect
    exact ⟨t, (hostRead_of_data reply _).trans next, effect⟩
  case expect =>
    have read := hostRead_of_data reply fun v t =>
      if v = imm then .next t.hostNext else .fault (.expectFailed off imm v)
    refine ⟨fun same => ⟨(busRead off 4 s).2.hostNext, read.trans (if_pos same), ?_, ?_⟩,
      fun differs => read.trans (if_neg differs)⟩
    · rw [State.hostNext_core, busRead_core]
    · rw [State.hostNext_host, busRead_host]
  case bnz =>
    simp only [hostExec, hostBnz]
    split <;> rfl
  case outside =>
    simp only [hostExec, hostReadAt, hostWriteAt, offsetOf_outside outside, and_self]

end Sys2Proof.Machine
end

section
/-! PROOFS. The whole machine: what a step other than reset can write, and that every job ends (10 sections 3 and 5, 40
sections 1 and 2). -/

namespace Sys2Proof.Machine

/-- A step that is no reset is the host's turn or the engine's, with the schedule entry used up. -/
theorem step_cases {s t : State} (h : step s = .next t) (notReset : nextTurn s ≠ .reset) :
    (nextTurn s = .host ∧ hostTurn s.turnTaken = .next t) ∨
      (nextTurn s = .engine ∧ engineTurn s.turnTaken = .next t) := by
  rw [step_eq] at h
  cases turn : nextTurn s with
  | host => rw [turn] at h; exact .inl ⟨rfl, h⟩
  | engine => rw [turn] at h; exact .inr ⟨rfl, h⟩
  | reset => exact absurd turn notReset

/-- R43 to R49, R53: an accepted write of the host leaves TAG and OUT. -/
theorem writeCore_results {r : Region} {v : Word} {c d : CoreState} (h : writeCore r v c = some d) :
    d.tag = c.tag ∧ d.outBuf = c.outBuf := by
  cases r with
  | cmd | key | inBuf | count | ctx | bitLen | inLen => cases h; exact ⟨rfl, rfl⟩
  | status | tag | outBuf => cases h

/-- R41, R56: an accepted write leaves KEYV, or it is the write of a key quarter, which sets that quarter's bit. -/
theorem writeCore_keyv {r : Region} {v : Word} {c d : CoreState} (h : writeCore r v c = some d) :
    d.keyv = c.keyv ∨ ∃ n, r = .key n ∧ d.keyv = c.keyv ||| (1#4 <<< n.val) := by
  cases r with
  | key n => cases h; exact .inr ⟨n, rfl, rfl⟩
  | cmd | inBuf | count | ctx | bitLen | inLen => cases h; exact .inl rfl
  | status | tag | outBuf => cases h

/-- A completion leaves every input of the job (R168, R200, R271). -/
theorem engineTurn_frame {s t : State} (h : engineTurn s = .next t) :
    t.core = { s.core with
      phase := t.core.phase, done := t.core.done, err := t.core.err, errCode := t.core.errCode, tag := t.core.tag
      outBuf := t.core.outBuf } := by
  rcases engineTurn_core h with ⟨-, rfl⟩ | ⟨-, e, -, rfl⟩ | ⟨-, -, -, c, hc, rfl⟩ | ⟨-, -, -, c, hc, rfl⟩
  · rfl
  · rfl
  · rw [performConf_frame hc]; rfl
  · rw [performInteg_frame hc]; rfl

/-- R132: the host's turn in phase BUSY leaves the block. -/
theorem hostTurn_busy {s t : State} (hb : s.core.phase = .busy) (h : hostTurn s = .next t) : t.core = s.core := by
  rcases hostTurn_core h with same | ⟨_, _, _, _, _, _, -, -, idle, -, -, -⟩
  · exact same
  · cases hb.symm.trans idle

/-- What the host's turn can do to KEYV: nothing, or in phase IDLE set the bit of the quarter its write names. -/
theorem hostTurn_keyv {s t : State} (h : hostTurn s = .next t) :
    t.core.keyv = s.core.keyv ∨ ∃ (n : Fin 4) (o : HostOp) (off : Offset), s.core.phase = .idle ∧
      t.core.keyv = s.core.keyv ||| (1#4 <<< n.val) ∧ s.host.program[s.host.next]? = some o ∧
      hostWrites o = some (off, 4) ∧ off.toNat = 0x20 + 4 * n.val := by
  rcases hostTurn_core h with same | ⟨o, off, bytes, v, r, c, op, writes, idle, target, write, core⟩
  · exact .inl (congrArg CoreState.keyv same)
  · rw [core]
    rcases writeCore_keyv write with same | ⟨n, rfl, set⟩
    · exact .inl same
    · obtain ⟨rfl, offset⟩ := accessTarget_offset target
      exact .inr ⟨n, o, off, idle, set, op, writes, offset⟩

/-- Settles O56: the engine leaves KEYV, and the host's turn leaves it or sets one bit. -/
theorem onlyResetClearsKeyValid : Obligations.OnlyResetClearsKeyValid := by
  intro s t n h notReset
  have kept {claim claim' : Prop} (same : t.core.keyv = s.core.keyv) :
      (s.core.keyv.getLsbD n = true → t.core.keyv.getLsbD n = true) ∧ (t.core.keyv ≠ s.core.keyv → claim) ∧
        (t.core.keyv.getLsbD n ≠ s.core.keyv.getLsbD n → claim') := by
    rw [same]
    exact ⟨id, fun changed => absurd rfl changed, fun changed => absurd rfl changed⟩
  rcases step_cases h notReset with ⟨turn, ht⟩ | ⟨-, ht⟩
  · rcases hostTurn_keyv ht with same | ⟨m, o, off, idle, set, op, writes, offset⟩
    · exact kept same
    · have set : t.core.keyv = s.core.keyv ||| (1#4 <<< m.val) := set
      refine ⟨fun on => ?_, fun _ => ⟨turn, idle⟩, fun changed => ?_⟩
      · rw [set, BitVec.getLsbD_or, on, Bool.true_or]
      · have inside : n < 4 := by
          by_contra beyond
          exact changed (by rw [BitVec.getLsbD_of_ge _ _ (Nat.le_of_not_lt beyond),
            BitVec.getLsbD_of_ge _ _ (Nat.le_of_not_lt beyond)])
        have quarter : n = m.val := by
          by_contra other
          exact changed (by rw [set, keyvSet_getLsbD _ _ inside, decide_eq_false other, Bool.false_or])
        exact ⟨o, off, op, writes, quarter ▸ offset, inside⟩
  · exact kept (by rw [engineTurn_frame ht]; rfl)

/-- The host never writes TAG or OUT (R49, R58). -/
theorem hostTurn_results {s t : State} (h : hostTurn s = .next t) :
    t.core.tag = s.core.tag ∧ t.core.outBuf = s.core.outBuf := by
  rcases hostTurn_core h with same | ⟨o, off, bytes, v, r, c, -, -, -, -, write, core⟩
  · rw [same]
    exact ⟨rfl, rfl⟩
  · rw [core]
    exact writeCore_results write

/-- Settles O57: of the cases of a step, only the completed CONF and INTEG write a result, each its own. -/
theorem onlyTheEnginesWriteResults : Obligations.OnlyTheEnginesWriteResults := by
  intro s t h notReset
  rcases step_cases h notReset with ⟨-, ht⟩ | ⟨turn, ht⟩
  · obtain ⟨tag, out⟩ := hostTurn_results ht
    exact ⟨fun changed => absurd tag changed, fun changed => absurd out changed⟩
  · rcases engineTurn_core ht with
      ⟨-, rfl⟩ | ⟨-, e, -, rfl⟩ | ⟨busy, conf, -, c, hc, rfl⟩ | ⟨busy, integ, -, c, hc, rfl⟩
    · exact ⟨fun changed => absurd rfl changed, fun changed => absurd rfl changed⟩
    · exact ⟨fun changed => absurd rfl changed, fun changed => absurd rfl changed⟩
    · have tag : c.complete.tag = s.core.tag := by rw [performConf_frame hc]; rfl
      exact ⟨fun changed => absurd tag changed, fun _ => ⟨turn, busy, conf, c.complete_done⟩⟩
    · have out : c.complete.outBuf = s.core.outBuf := by rw [performInteg_frame hc]; rfl
      exact ⟨fun _ => ⟨turn, busy, integ, c.complete_done⟩, fun changed => absurd out changed⟩

/-- Settles O58: in phase BUSY the host leaves the block, and the completion leaves the inputs. -/
theorem jobInputsAreFrozen : Obligations.JobInputsAreFrozen := by
  intro s t hb notReset h
  rcases step_cases h notReset with ⟨-, ht⟩ | ⟨turn, ht⟩
  · have same : t.core = s.core := hostTurn_busy (s := s.turnTaken) hb ht
    rw [same]
    exact ⟨fun _ => rfl, rfl, rfl, rfl, rfl, rfl, rfl, rfl, rfl, rfl⟩
  · have notHost : nextTurn s = .host → t.core = s.core := fun host => by cases turn.symm.trans host
    refine ⟨notHost, ?_⟩
    rw [engineTurn_frame ht]
    exact ⟨rfl, rfl, rfl, rfl, rfl, rfl, rfl, rfl, rfl⟩

/-! What the host's operations leave of the schedule and of the host's program. -/

theorem hostRead_schedule {off : Offset} {bytes : Nat} {s t : State} {use : Word → State → Result}
    (keeps : ∀ v u t, use v u = .next t → t.schedule = u.schedule) (h : hostRead off bytes s use = .next t) :
    t.schedule = s.schedule := by
  obtain ⟨v, -, used⟩ := hostRead_eq_next.mp h
  rw [keeps v _ t used, busRead_schedule]

theorem hostWrite_schedule {off : Offset} {bytes : Nat} {v : Word} {s t : State}
    (h : hostWrite off bytes v s = .next t) : t.schedule = s.schedule := by
  obtain ⟨-, rfl⟩ := hostWrite_eq_next.mp h
  rw [State.hostNext_schedule, busWrite_schedule]

theorem hostExec_schedule {o : HostOp} {s t : State} (h : hostExec o s = .next t) : t.schedule = s.schedule := by
  have store {dst : HostReg} (v : Word) (u t : State) (h : (.next (u.setReg dst v).hostNext : Result) = .next t) :
      t.schedule = u.schedule := by cases h; rfl
  cases o with
  | wr off imm => exact hostWrite_schedule h
  | wrh off src => exact hostWrite_schedule h
  | rd dst off => exact hostRead_schedule store h
  | and dst src imm => exact store _ s t h
  | bnz src target =>
    cases h
    split <;> rfl
  | expect off imm =>
    refine hostRead_schedule (fun v u t used => ?_) h
    split at used
    next => cases used; rfl
    next => cases used
  | readAt dst addr bytes =>
    simp only [hostExec, hostReadAt] at h
    split at h
    next => cases h
    next => exact hostRead_schedule store h
  | writeAt addr bytes v =>
    simp only [hostExec, hostWriteAt] at h
    split at h
    next => cases h
    next => exact hostWrite_schedule h

theorem engineTurn_schedule {s t : State} (h : engineTurn s = .next t) : t.schedule = s.schedule := by
  rcases engineTurn_core h with ⟨-, rfl⟩ | ⟨-, e, -, rfl⟩ | ⟨-, -, -, c, hc, rfl⟩ | ⟨-, -, -, c, hc, rfl⟩ <;> rfl

theorem hostTurn_schedule {s t : State} (h : hostTurn s = .next t) : t.schedule = s.schedule := by
  unfold hostTurn at h
  split at h
  next => cases h; rfl
  next => exact hostExec_schedule h

theorem takeTurn_schedule {u : Turn} {s t : State} (h : takeTurn u s = .next t) : t.schedule = s.schedule := by
  cases u with
  | host => exact hostTurn_schedule h
  | engine => exact engineTurn_schedule h
  | reset => cases h; rfl

/-- Every step uses up one turn of the schedule, and adds none. -/
theorem step_schedule {s t : State} (h : step s = .next t) : t.schedule = s.schedule.tail :=
  takeTurn_schedule (s := s.turnTaken) h

/-- R134: the engine's turn ends the job, or the run. -/
theorem engineTurn_idle {s t : State} (h : engineTurn s = .next t) : t.core.phase = .idle := by
  rcases engineTurn_core h with ⟨idle, rfl⟩ | ⟨-, e, -, rfl⟩ | ⟨-, -, -, c, -, rfl⟩ | ⟨-, -, -, c, -, rfl⟩
  · exact idle
  · exact s.core.raiseError_phase e
  · exact c.complete_phase
  · exact c.complete_phase

/-- R135: with no turn fixed, a job in flight is completed next. -/
theorem step_idle_of_no_schedule {s t : State} (hb : s.core.phase = .busy) (none : s.schedule = [])
    (h : step s = .next t) : t.core.phase = .idle := by
  have turn : nextTurn s = .engine := by
    simp only [nextTurn, none]
    exact if_pos (CoreState.busy_eq_true.mpr hb)
  rw [step_eq, turn] at h
  exact engineTurn_idle h

/-- A run of `k` steps reaches phase IDLE or stops. -/
def EndsJobIn (k : Nat) (s : State) : Prop :=
  (∃ t, Sys2Proof.core.run k s = .next t ∧ t.core.phase = .idle) ∨
    (∃ r, Sys2Proof.core.run k s = .fault r) ∨ ∃ r, Sys2Proof.core.run k s = .refused r

theorem EndsJobIn.of_idle {s : State} (h : s.core.phase = .idle) : EndsJobIn 0 s := .inl ⟨s, rfl, h⟩

theorem EndsJobIn.of_step {s u : State} {k : Nat} (h : step s = .next u) (rest : EndsJobIn k u) :
    EndsJobIn (k + 1) s := by
  rwa [EndsJobIn, run_succ_next k h]

/-- R135: the schedule's turns are used up one by one, and the engine's turn follows them. -/
theorem endsJob_within_schedule (s : State) (hb : s.core.phase = .busy) :
    ∃ k, k ≤ s.schedule.length + 1 ∧ EndsJobIn k s := by
  induction turns : s.schedule generalizing s with
  | nil =>
    refine ⟨1, Nat.le_refl _, ?_⟩
    cases next : step s with
    | next u => exact .of_step next (.of_idle (step_idle_of_no_schedule hb turns next))
    | fault r => exact .inr (.inl ⟨r, run_succ_fault 0 next⟩)
    | refused r => exact .inr (.inr ⟨r, run_succ_refused 0 next⟩)
  | cons turn rest ih =>
    cases next : step s with
    | next u =>
      have left : u.schedule = rest := by rw [step_schedule next, turns, List.tail_cons]
      cases phase : u.core.phase with
      | idle => exact ⟨1, Nat.le_add_left .., .of_step next (.of_idle phase)⟩
      | busy =>
        obtain ⟨k, bound, ends⟩ := ih u phase left
        exact ⟨k + 1, Nat.succ_le_succ bound, .of_step next ends⟩
    | fault r => exact ⟨1, Nat.le_add_left .., .inr (.inl ⟨r, run_succ_fault 0 next⟩)⟩
    | refused r => exact ⟨1, Nat.le_add_left .., .inr (.inr ⟨r, run_succ_refused 0 next⟩)⟩

/-- The host has nothing left to do, and the job in flight, if any, reads written bytes only. -/
structure State.Undisturbed (s : State) : Prop where
  hostDone : s.host.program.length ≤ s.host.next
  written : s.core.phase = .busy → s.core.InputWritten

/-- R134: over a written message the completion step always answers. -/
theorem engineTurn_completes {s : State} (hb : s.core.phase = .busy) (written : s.core.InputWritten) :
    ∃ c, engineTurn s = .next (s.withCore c) ∧ c.phase = .idle := by
  cases failed : check (decode s.core.jobCmd) s.core with
  | some e => exact ⟨_, engineTurn_of_error hb failed, s.core.raiseError_phase e⟩
  | none =>
    cases hd : decode s.core.jobCmd with
    | illegal why => rw [hd] at failed; cases failed
    | instr i =>
      obtain ⟨c, hc⟩ := perform_of_written written i
      have checks : s.core.Checks := check_eq_none.mp (hd ▸ failed)
      exact ⟨_, (engineTurn_of_instr hb hd).trans (exec_of_perform checks hc), c.complete_phase⟩

theorem hostTurn_of_done {s : State} (h : s.host.program.length ≤ s.host.next) : hostTurn s = .next s := by
  simp only [hostTurn, List.getElem?_eq_none h]

/-- A step of an undisturbed machine answers, and leaves it undisturbed. -/
theorem step_of_undisturbed {s : State} (h : s.Undisturbed) : ∃ t, step s = .next t ∧ t.Undisturbed := by
  obtain ⟨hostDone, written⟩ := h
  have atRest {t : State} (host : t.host = s.host) (idle : t.core.phase = .idle) : t.Undisturbed :=
    ⟨host ▸ hostDone, fun busy => by cases idle.symm.trans busy⟩
  rw [step_eq]
  cases nextTurn s with
  | host => exact ⟨_, hostTurn_of_done (s := s.turnTaken) hostDone, hostDone, written⟩
  | reset => exact ⟨_, rfl, atRest rfl CoreState.reset_phase⟩
  | engine =>
    cases phase : s.core.phase with
    | idle =>
      have passes : engineTurn s.turnTaken = .next s.turnTaken := by
        simp only [engineTurn, State.turnTaken_core, phase]
      exact ⟨_, passes, atRest rfl phase⟩
    | busy =>
      obtain ⟨c, completes, idle⟩ := engineTurn_completes (s := s.turnTaken) phase (written phase)
      exact ⟨_, completes, atRest rfl idle⟩

/-- No run of an undisturbed machine stops. -/
theorem run_of_undisturbed (k : Nat) {s : State} (h : s.Undisturbed) : ∃ t, Sys2Proof.core.run k s = .next t := by
  induction k generalizing s with
  | zero => exact ⟨s, rfl⟩
  | succ k ih =>
    obtain ⟨u, next, undisturbed⟩ := step_of_undisturbed h
    rw [run_succ_next k next]
    exact ih undisturbed

/-- Settles O59: the host leaves a job in flight, the schedule bounds the wait, and an undisturbed run never stops, so
it reaches phase IDLE. -/
theorem everyJobCompletes : Obligations.EveryJobCompletes := by
  refine ⟨fun s t hb ht => ?_, endsJob_within_schedule, fun s hb hostDone written => ?_⟩
  · rw [hostTurn_busy hb ht, hb]
  · obtain ⟨k, bound, ends⟩ := endsJob_within_schedule s hb
    obtain ⟨u, run⟩ := run_of_undisturbed k ⟨hostDone, fun _ => written⟩
    rcases ends with ⟨t, reached, idle⟩ | ⟨r, fault⟩ | ⟨r, refused⟩
    · exact ⟨k, t, bound, reached, idle⟩
    · cases run.symm.trans fault
    · cases run.symm.trans refused

end Sys2Proof.Machine
end

section
/-! PROOFS. The text of a host program: what each line expands to, where its operations stand, and where a label leads
(30 section 4). -/

namespace Sys2Proof.Machine

/-- R116: LDMSG writes one word per four bytes of the message, a last part rounded up. -/
theorem messageWrites_length (msg : List Byte) : (messageWrites msg).length = (msg.length + 3) / 4 := by
  simp only [messageWrites, List.length_map, List.length_range, ceilDiv, Nat.add_succ_sub_one]

theorem messageWrites_getElem? {msg : List Byte} {j : Nat} (hj : j < (msg.length + 3) / 4) :
    (messageWrites msg)[j]? = some (.wr (BitVec.ofNat 24 (0x100000 + 4 * j)) (messageWord msg j)) := by
  have inside : j < ceilDiv msg.length 4 := hj
  rw [messageWrites, List.getElem?_map, List.getElem?_range inside, Option.map_some]

/-- R116: a word that is no command is shown as a number. -/
theorem disassemble_of_illegal {w : Word} {why : IllegalWord} (h : decode w = .illegal why) :
    disassemble w = ".word 0x" ++ String.ofList (hexWord w) := by
  simp only [disassemble, h]

/-- Settles O51: each expansion is its line's, LDMSG's word by word, and RUN is ISSUE followed by POLL. -/
theorem pseudoInstructionExpansions : Obligations.PseudoInstructionExpansions := by
  intro find i
  refine ⟨fun k => rfl, fun b d => rfl, fun msg => ?ldmsg, rfl, rfl, rfl, fun op => ⟨_, _, rfl, rfl, rfl⟩, rfl, rfl,
    fun w notConf notInteg => ?word⟩
  case ldmsg => exact ⟨messageWrites msg, rfl, messageWrites_length msg, fun j => messageWrites_getElem?⟩
  case word =>
    obtain ⟨why, illegal⟩ := decode_illegal_of_ne_encode (ne_encode_of_ne_words notConf notInteg)
    exact disassemble_of_illegal illegal

/-- The place of the operation that follows the lines `ls`, in a text that begins with them. -/
def place (ls : List HostLine) : Nat := (ls.map lineLength).sum

theorem place_cons (l : HostLine) (ls : List HostLine) : place (l :: ls) = lineLength l + place ls := by
  simp [place]

section
variable {find : String → Option Nat} {i : Nat}

/-- The number of operations of a line depends on neither its place nor the labels. -/
theorem expandLine_length {l : HostLine} {os : List HostOp} (h : expandLine find i l = some os) :
    os.length = lineLength l := by
  cases l with
  | bnz src name =>
    obtain ⟨target, -, rfl⟩ := Option.map_eq_some_iff.mp h
    rfl
  | label | op | ldkey | setctx | ldmsg | issue | poll | run => cases h; rfl

/-- Every line has an expansion, a branch if its label has a place. -/
theorem expandLine_isSome (l : HostLine) :
    (expandLine find i l).isSome = true ↔ ∀ src name, l = .bnz src name → (find name).isSome = true := by
  cases l with
  | bnz src name =>
    rw [expandLine, Option.isSome_map]
    exact ⟨fun h _ _ same => by cases same; exact h, fun h => h src name rfl⟩
  | label | op | ldkey | setctx | ldmsg | issue | poll | run => exact ⟨fun _ _ _ => nofun, fun _ => rfl⟩

theorem mem_branchesOf_cons {l : HostLine} {ls : List HostLine} {name : String} :
    name ∈ branchesOf (l :: ls) ↔ (∃ src, l = .bnz src name) ∨ name ∈ branchesOf ls := by
  cases l with
  | bnz src n =>
    rw [branchesOf, List.mem_cons]
    exact or_congr_left ⟨fun h => ⟨src, h ▸ rfl⟩, fun ⟨_, h⟩ => by cases h; rfl⟩
  | label | op | ldkey | setctx | ldmsg | issue | poll | run => simp [branchesOf]

theorem mem_labelsOf_cons {l : HostLine} {ls : List HostLine} {name : String} :
    name ∈ labelsOf (l :: ls) ↔ l = .label name ∨ name ∈ labelsOf ls := by
  cases l with
  | label n =>
    rw [labelsOf, List.mem_cons]
    exact or_congr_left ⟨fun h => h ▸ rfl, fun h => by cases h; rfl⟩
  | bnz | op | ldkey | setctx | ldmsg | issue | poll | run => simp [labelsOf]

/-- What the expansion of a text answers: the first line's operations, then the rest's from the place after them. -/
theorem assembleFrom_cons_eq_some {l : HostLine} {ls : List HostLine} {p : List HostOp} :
    assembleFrom find i (l :: ls) = some p ↔ ∃ os rest, expandLine find i l = some os ∧
      assembleFrom find (i + lineLength l) ls = some rest ∧ p = os ++ rest := by
  rw [assembleFrom]
  cases expandLine find i l <;> cases assembleFrom find (i + lineLength l) ls <;> simp [eq_comm]

theorem assembleFrom_cons_isSome {l : HostLine} {ls : List HostLine} :
    (assembleFrom find i (l :: ls)).isSome = true ↔
      (expandLine find i l).isSome = true ∧ (assembleFrom find (i + lineLength l) ls).isSome = true := by
  simp only [Option.isSome_iff_exists, assembleFrom_cons_eq_some]
  exact ⟨fun ⟨_, os, rest, h1, h2, _⟩ => ⟨⟨os, h1⟩, rest, h2⟩, fun ⟨⟨os, h1⟩, rest, h2⟩ => ⟨_, os, rest, h1, h2, rfl⟩⟩

/-- A text expands exactly when every label it branches to has a place. -/
theorem assembleFrom_isSome (ls : List HostLine) :
    (assembleFrom find i ls).isSome = true ↔ ∀ name ∈ branchesOf ls, (find name).isSome = true := by
  induction ls generalizing i with
  | nil => simp [assembleFrom, branchesOf]
  | cons l ls ih =>
    simp only [assembleFrom_cons_isSome, expandLine_isSome, ih, mem_branchesOf_cons, or_imp, forall_and,
      forall_exists_index]
    exact and_congr_left fun _ => forall_comm

/-- The lines of a text fill its expansion. -/
theorem assembleFrom_length {ls : List HostLine} {p : List HostOp} (h : assembleFrom find i ls = some p) :
    p.length = place ls := by
  induction ls generalizing i p with
  | nil => cases h; rfl
  | cons l ls ih =>
    obtain ⟨os, rest, first, others, rfl⟩ := assembleFrom_cons_eq_some.mp h
    rw [List.length_append, expandLine_length first, ih others, place_cons]

/-- Every line's operations stand where those of the lines before it end. -/
theorem assembleFrom_split {before after : List HostLine} {l : HostLine} {p : List HostOp}
    (h : assembleFrom find i (before ++ l :: after) = some p) :
    ∃ front os back, p = front ++ (os ++ back) ∧ front.length = place before ∧
      expandLine find (i + place before) l = some os := by
  induction before generalizing i p with
  | nil =>
    obtain ⟨os, back, line, -, rfl⟩ := assembleFrom_cons_eq_some.mp h
    exact ⟨[], os, back, rfl, rfl, line⟩
  | cons b before ih =>
    obtain ⟨first, rest, line, others, rfl⟩ := assembleFrom_cons_eq_some.mp h
    obtain ⟨front, os, back, rfl, length, expansion⟩ := ih others
    refine ⟨first ++ front, os, back, (List.append_assoc ..).symm, ?_, ?_⟩
    · rw [List.length_append, expandLine_length line, length, place_cons]
    · rwa [place_cons, ← Nat.add_assoc]

/-- The same by the index in the program. -/
theorem assembleFrom_line {before after : List HostLine} {l : HostLine} {p : List HostOp}
    (h : assembleFrom find i (before ++ l :: after) = some p) :
    ∃ os, expandLine find (i + place before) l = some os ∧ ∀ j, j < os.length → p[place before + j]? = os[j]? := by
  obtain ⟨front, os, back, rfl, length, expansion⟩ := assembleFrom_split h
  refine ⟨os, expansion, fun j hj => ?_⟩
  rw [← length, List.getElem?_append_right (Nat.le_add_right ..), Nat.add_sub_cancel_left,
    List.getElem?_append_left hj]

end

/-- A label's index is the place of the first line that defines it. -/
theorem labelIndex_eq_some {name : String} {i n : Nat} {ls : List HostLine} (h : labelIndex name i ls = some n) :
    ∃ before after, ls = before ++ .label name :: after ∧ n = i + place before := by
  induction ls generalizing i with
  | nil => cases h
  | cons l ls ih =>
    have later (rest : labelIndex name (i + lineLength l) ls = some n) :
        ∃ before after, l :: ls = before ++ .label name :: after ∧ n = i + place before := by
      obtain ⟨before, after, rfl, rfl⟩ := ih rest
      exact ⟨l :: before, after, rfl, by rw [place_cons, Nat.add_assoc]⟩
    cases l with
    | label m =>
      rw [labelIndex] at h
      split at h
      next same =>
        cases h
        exact ⟨[], ls, same ▸ rfl, rfl⟩
      next => exact later h
    | bnz | op | ldkey | setctx | ldmsg | issue | poll | run => exact later h

/-- A label has an index exactly when the text defines it. -/
theorem labelIndex_isSome {name : String} {i : Nat} (ls : List HostLine) :
    (labelIndex name i ls).isSome = true ↔ name ∈ labelsOf ls := by
  induction ls generalizing i with
  | nil => simp [labelIndex, labelsOf]
  | cons l ls ih =>
    rw [mem_labelsOf_cons]
    cases l with
    | label m =>
      rw [labelIndex]
      split
      next same => simp [same]
      next differs => simp [differs, ih]
    | bnz | op | ldkey | setctx | ldmsg | issue | poll | run => simp [labelIndex, ih]

/-- R115, log entry 22: a text has a program exactly when it is well formed. -/
theorem assemble_isSome (ls : List HostLine) : (assemble ls).isSome = hostTextWf ls := by
  rw [assemble]
  split
  next wf =>
    obtain ⟨-, defined⟩ := Bool.and_eq_true_iff.mp wf
    rw [wf, assembleFrom_isSome]
    intro name branch
    rw [labelIndex_isSome]
    simpa using List.all_eq_true.mp defined name branch
  next bad => simpa using bad

/-- R115: what a program is made of, its labels resolved in the text itself. -/
theorem assembleFrom_of_assemble {ls : List HostLine} {p : List HostOp} (h : assemble ls = some p) :
    assembleFrom (fun name => labelIndex name 0 ls) 0 ls = some p :=
  (Option.ite_none_right_eq_some.mp h).right

/-- Settles O60: the program is cut at every line's place, and a branch's target is the index of its label. -/
theorem labelsNameTheNextOperation : Obligations.LabelsNameTheNextOperation := by
  refine ⟨assemble_isSome, fun ls p assembled => ?_⟩
  have program := assembleFrom_of_assemble assembled
  refine ⟨assembleFrom_length program, fun before l after text => ?line, fun before src name after text => ?branch⟩
  case line =>
    obtain ⟨os, expansion, stands⟩ := assembleFrom_line (before := before) (text ▸ program)
    rw [Nat.zero_add] at expansion
    exact ⟨_, os, expansion, expandLine_length expansion, stands⟩
  case branch =>
    subst text
    obtain ⟨os, expansion, stands⟩ := assembleFrom_line program
    obtain ⟨target, label, rfl⟩ := Option.map_eq_some_iff.mp expansion
    obtain ⟨before', after', defined, rfl⟩ := labelIndex_eq_some label
    exact ⟨before', after', defined, (stands 0 Nat.one_pos).trans (by rw [Nat.zero_add]; rfl)⟩

end Sys2Proof.Machine
end
